-- ==== Sys2Proof/Word.lean ====
section
/-!
DEFINITION. The words of the block: a register (R24), a byte lane (R63), and the three small codes that the
command word and the line registers are made of. All are unsigned, bit 0 least significant (R9).
-/

namespace Sys2Proof

/-- A 16-bit register or command word (R24, R80). -/
abbrev Word := BitVec 16

/-- An 8-bit byte lane (R63), or an 8-bit character code of the reference host (R161). -/
abbrev Byte := BitVec 8

/-- A slot index 0..7 (R2, R81). -/
abbrev Slot := BitVec 3

/-- A dot position 0..5 (R10). -/
abbrev Position := Fin 6

/-- A dot pattern: bit i is dot position i, that is dot i+1 (R10). -/
abbrev Pattern := BitVec 6

/-- The levels of a 3-line bus, line A the bit of weight 1, line C the bit of weight 4 (R21). -/
abbrev Code := BitVec 3

/-- A word offset 0..15 of the register block (R24). -/
abbrev Offset := BitVec 4

end Sys2Proof
end

