-- ==== Sys2Proof/Config.lean ====
section
/-!
DEFINITION. What a platform or an implementation fixes and the spec leaves open (R8, 92_eei_decisions.md,
93_implementation_defined.md). `Config.platform` has no body: nothing in Lean can evaluate it, so a claim about
the machine holds for every platform.
-/

namespace Sys2Proof

/-- The open parameters. Each constraint the spec puts on one is built into how it is held. -/
structure Config where
  /-- `CLK_PER_MS` less one, so that `CLK_PER_MS` is positive (R8, R241; D16; log 11). -/
  clkPerMsPred : Nat
  /-- `BAM_BASE` divided by 32, so that `BAM_BASE` is a multiple of 32 (R61; D39; log 11). -/
  bamBlock : Nat
  /-- `PREFIX_PATTERN` (R164; D24; log 12). -/
  prefixPattern : Pattern
  /-- Source of `PUNCT_PATTERN`; read it through `Config.punctPattern` (R165; D25; log 12). -/
  punctRaw : Byte → Pattern
  /-- DESIGN CHOICE, safe (log 6): does a write at the very edge where a command completes still find `BUSY = 1`? -/
  lateWriteSeesBusy : Bool
  /-- What the debug mirror's channels 6 and 10..18 show (R192; 93 I4; log 20). -/
  mirrorOther : Nat → Bool
deriving Inhabited

/-- `CLK_PER_MS`: clock cycles per millisecond, a positive integer (R8, R241). -/
def Config.clkPerMs (c : Config) : Nat := c.clkPerMsPred + 1

/-- `BAM_BASE`: aligned to 32 bytes (R61). -/
def Config.bamBase (c : Config) : Nat := 32 * c.bamBlock

/-- `PUNCT_PATTERN`: `)` (0x29) shows the pattern of `(` (0x28) and `;` (0x3B) that of `.` (0x2E), the only two
equalities a model may assume (R165). -/
def Config.punctPattern (c : Config) (ch : Byte) : Pattern :=
  if ch = 0x29#8 then c.punctRaw 0x28#8
  else if ch = 0x3B#8 then c.punctRaw 0x2E#8
  else c.punctRaw ch

/-- The platform the machine stands on. It has no body: its fields are uninterpreted (log 6, 11, 12, 20). -/
opaque Config.platform : Config

end Sys2Proof
end

