-- ==== Sys2Proof/Syntax.lean ====
section
/-!
DEFINITION. The commands of the block: one constructor per row of spec/opcode_table.json (R84). Operands are
exactly what R87's decoder returns. Bits that a command ignores (R85) are no operand of it (log 3).
-/

namespace Sys2Proof

/-- A decoded command (R84, R87). -/
inductive Instr where
  /-- `NOP` (R125). -/
  | nop
  /-- `SWEEP` (R131). -/
  | sweep
  /-- `ADDR s` (R136). -/
  | addr (slot : Slot)
  /-- `PLAY`; well formed as a pattern when `len = 6` (R141), silently malformed otherwise (R142). -/
  | play (len : BitVec 3) (slot : Slot) (pat : Pattern)
  /-- `WAIT SETTLE` (R150). -/
  | waitSettle
  /-- `WAIT CHAR` (R150). -/
  | waitChar
  /-- Reserved: opcode 0x4 with `WSEL` 2 or 3 (R155). -/
  | illegalWait (w : Word)
  /-- Reserved: opcode 0x5 (R155). -/
  | illegalOp5 (w : Word)
  /-- Reserved: opcodes 0x6 and 0x7 (R155). -/
  | illegalOp67 (w : Word)
  /-- Reserved: opcodes 0x8 to 0xF (R155). -/
  | illegalOp8F (w : Word)
deriving DecidableEq, Repr

end Sys2Proof
end

