-- ==== Sys2Proof/WellFormed.lean ====
section
/-!
DEFINITION. Well-formed commands. Slots, lengths and patterns are in range by their widths (R82); the word that a
reserved command carries must lie in that command's row of the opcode map (R84).
-/

namespace Sys2Proof

/-- `w` matches the row of the opcode map with these `mask` and `fixed` bits: `(w AND mask) = match` (R84). -/
def Word.inRow (mask fixed w : Word) : Bool := (w &&& mask) == fixed

/-- The checks on a command, one for each constructor that can be ill formed (R84). -/
def Instr.wf : Instr → Bool
  | .nop => true
  | .sweep => true
  | .addr _ => true
  | .play _ _ _ => true
  | .waitSettle => true
  | .waitChar => true
  | .illegalWait w => Word.inRow 0xF002#16 0x4002#16 w
  | .illegalOp5 w => Word.inRow 0xF000#16 0x5000#16 w
  | .illegalOp67 w => Word.inRow 0xE000#16 0x6000#16 w
  | .illegalOp8F w => Word.inRow 0x8000#16 0x8000#16 w

end Sys2Proof
end

