-- ==== Sys2Proof/Decode.lean ====
section
/-!
DEFINITION. Command words: the fields (R81, R82), the opcode map (R84), the decoder, total on words and on bytes
(R87), and the encoder written from the same map (R84, R88).
-/

namespace Sys2Proof

/-- `OP = w[15:12]` (R81). -/
def Word.opField (w : Word) : BitVec 4 := w.extractLsb' 12 4

/-- `LEN = w[11:9]` (R81). -/
def Word.lenField (w : Word) : BitVec 3 := w.extractLsb' 9 3

/-- `SLOT = w[8:6]` (R81). -/
def Word.slotField (w : Word) : Slot := w.extractLsb' 6 3

/-- `PAT = w[5:0]` (R81). -/
def Word.patField (w : Word) : Pattern := w.extractLsb' 0 6

/-- `WSEL = w[1:0]` (R81). -/
def Word.wselField (w : Word) : BitVec 2 := w.extractLsb' 0 2

/-- The command a reserved word is: which of the four reserved rows of the opcode map it lies in (R84). Called on
words that no assigned opcode takes. -/
def decodeReserved (w : Word) : Instr :=
  if w.opField = 0x4#4 then .illegalWait w
  else if w.opField = 0x5#4 then .illegalOp5 w
  else if w.opField = 0x6#4 ∨ w.opField = 0x7#4 then .illegalOp67 w
  else .illegalOp8F w

/-- The decoder, total over all 16-bit words (R87). -/
def decode (w : Word) : Instr :=
  if w.opField = 0x0#4 then .nop
  else if w.opField = 0x1#4 then .sweep
  else if w.opField = 0x2#4 then .addr w.slotField
  else if w.opField = 0x3#4 then .play w.lenField w.slotField w.patField
  else if w.opField = 0x4#4 ∧ w.wselField = 0#2 then .waitSettle
  else if w.opField = 0x4#4 ∧ w.wselField = 1#2 then .waitChar
  else decodeReserved w

/-- Why bytes are no command. -/
inductive DecodeError where
  /-- Fewer than the two bytes of a command word are there (R80: one length). -/
  | truncated
deriving DecidableEq, Repr

/-- Two byte lanes as one word: bits 7:0 at the lower address (R63). -/
def wordOfBytes (lo hi : Byte) : Word := hi ++ lo

/-- The byte lanes of a word, lower address first (R63). -/
def bytesOfWord (w : Word) : List Byte := [w.extractLsb' 0 8, w.extractLsb' 8 8]

/-- The decoder on bytes, total: a command and the bytes after it, or the name of what is wrong (R63, R80, R87). -/
def decodeBytes : List Byte → Except DecodeError (Instr × List Byte)
  | lo :: hi :: rest => .ok (decode (wordOfBytes lo hi), rest)
  | _ => .error .truncated

/-- The word of a command; ignored bits are written as 0 (R84, R85, R88). A reserved command is its own word. -/
def encode : Instr → Word
  | .nop => 0x0000#16
  | .sweep => 0x1000#16
  | .addr slot => 0x2#4 ++ 0#3 ++ slot ++ 0#6
  | .play len slot pat => 0x3#4 ++ len ++ slot ++ pat
  | .waitSettle => 0x4000#16
  | .waitChar => 0x4001#16
  | .illegalWait w => w
  | .illegalOp5 w => w
  | .illegalOp67 w => w
  | .illegalOp8F w => w

/-- One row of the opcode map (R84). -/
structure OpcodeRow where
  mnemonic : String
  fixed : Word
  mask : Word
deriving DecidableEq, Repr

/-- The row of the opcode map a command belongs to (R84). -/
def Instr.row : Instr → OpcodeRow
  | .nop => ⟨"NOP", 0x0000#16, 0xF000#16⟩
  | .sweep => ⟨"SWEEP", 0x1000#16, 0xF000#16⟩
  | .addr _ => ⟨"ADDR", 0x2000#16, 0xF000#16⟩
  | .play _ _ _ => ⟨"PLAY", 0x3000#16, 0xF000#16⟩
  | .waitSettle => ⟨"WAIT_SETTLE", 0x4000#16, 0xF003#16⟩
  | .waitChar => ⟨"WAIT_CHAR", 0x4001#16, 0xF003#16⟩
  | .illegalWait _ => ⟨"ILLEGAL__WAIT_WSEL_2_3", 0x4002#16, 0xF002#16⟩
  | .illegalOp5 _ => ⟨"ILLEGAL__OP_0x5", 0x5000#16, 0xF000#16⟩
  | .illegalOp67 _ => ⟨"ILLEGAL__OP_0x6-0x7", 0x6000#16, 0xE000#16⟩
  | .illegalOp8F _ => ⟨"ILLEGAL__OP_0x8-0xF", 0x8000#16, 0x8000#16⟩

/-- The opcode map, in the order of R84. -/
def opcodeTable : List OpcodeRow :=
  [ Instr.nop.row, Instr.sweep.row, (Instr.addr 0#3).row, (Instr.play 0#3 0#3 0#6).row,
    Instr.waitSettle.row, Instr.waitChar.row, (Instr.illegalWait 0#16).row, (Instr.illegalOp5 0#16).row,
    (Instr.illegalOp67 0#16).row, (Instr.illegalOp8F 0#16).row ]

/-- A word lies in a row when `(w AND mask) = match` (R84). -/
def OpcodeRow.matches (r : OpcodeRow) (w : Word) : Bool := Word.inRow r.mask r.fixed w

/-- What the decoder reads from an instruction of `nbits` bits `w`, numbered as the opcode table numbers them: laid
out in byte lanes (R63), bits above `nbits` zero, and decoded. A command is one word (R80), so more than 16 bits
are no command. -/
def decodeTableWord (nbits w : Nat) : Option Instr :=
  if nbits ≤ 16 then
    match decodeBytes (bytesOfWord (BitVec.ofNat 16 (w % 2 ^ nbits))) with
    | .ok (i, []) => some i
    | _ => none
  else none

end Sys2Proof
end

