-- ==== Sys2Proof/Machine/State.lean ====
section
/-!
DEFINITION. The state of the machine, as plain data: the block's registers, its sequencer, its read-data pin, and
the host agent that drives it (R7, R20 to R35, R175); why a step can stop; and the state after reset (R33).
-/

namespace Sys2Proof.Machine

/-- The two values of register `MODE` (R23). -/
inductive Mode where
  /-- `MODE = 0`: `SET=low, RESET=high`. -/
  | sweep
  /-- `MODE = 1`: `SET=high, RESET=low`. -/
  | address
deriving DecidableEq, Repr

/-- Register `CUR` (R28): its three fields; the reserved bits read as zero. -/
structure Cur where
  slot : Slot
  valid : Bool
  pattern : Pattern
deriving DecidableEq, Repr

/-- The six timing registers, in milliseconds, every value legal (R29). -/
structure Timing where
  sweepStep : Word
  pulseHold : Word
  pulseGap : Word
  prefixSettle : Word
  charHold : Word
  addrSetup : Word
deriving DecidableEq, Repr

/-- `U` of a phase: assignments to output-line registers, `none` where a register (for `PUL`, a line) is not
assigned (R120). A level is `true` for high (R12). -/
structure LineSet where
  mode : Option Mode := none
  sel : Option Slot := none
  pulC : Option Bool := none
  pulB : Option Bool := none
  pulA : Option Bool := none
deriving DecidableEq, Repr

/-- A phase `(U, d)` (R120). `cur` is the command's own effect on `CUR`, which takes place at the instant of its
first `Apply` (R121): only a command's first phase carries one (log 5). -/
structure Phase where
  lines : LineSet
  cur : Option Cur := none
  hold : Word
deriving DecidableEq, Repr

/-- One host access on the block's pins: a word offset, and the data of a write (R233). -/
inductive Access where
  | read (offset : Offset)
  | write (offset : Offset) (data : Word)
deriving DecidableEq, Repr

/-- State of one display request (R175). -/
structure DisplayState where
  displayIndex : Nat
  isPrevDigit : Bool
  prevSlotIndex : Option Slot
deriving DecidableEq, Repr

/-- What the reference host reports (R179, R183, R191). -/
inductive Diagnostic where
  | inputRejected
  | unmapped (c : Byte)
deriving DecidableEq, Repr

/-- What the host does. The first five take one cycle each time they are performed; the last three are steps of the
reference host's program, which by themselves take none (R177, R178; log 9, log 19). -/
inductive HostOp where
  /-- One register access on the pins (R233). -/
  | access (a : Access)
  /-- `rst = 1` for one cycle; an access in that cycle is ignored (R230). -/
  | reset (a : Option Access)
  /-- `MemRead(addr, width)` on the host bus (R61 to R64). -/
  | memRead (addr width : Nat)
  /-- `MemWrite(addr, width, data)` on the host bus (R61 to R64). -/
  | memWrite (addr width : Nat) (data : Word)
  /-- Read `STATUS` until `BUSY = 0` (R177). -/
  | poll
  /-- Begin the request `displayText(text)`; `none` is null text (R178, R179). -/
  | displayText (text : Option (List Byte))
  /-- The characters of the request in flight that are still to come; `[]` ends it (R175, R178). -/
  | displayChars (text : List Byte)
  /-- The display state of the request in flight becomes `st`, and the diagnostics `ds` are given (R178, R191). -/
  | note (st : DisplayState) (ds : List Diagnostic)
deriving DecidableEq, Repr

/-- The host agent (R7): what it will do, oldest first; how many cycles it lets pass before each of its next
operations (none once the list is empty; R242, log 9); its request in flight; its diagnostics, oldest first. -/
structure HostAgent where
  script : List HostOp
  pace : List Nat
  request : Option DisplayState
  diagnostics : List Diagnostic
deriving DecidableEq, Repr

/-- Why the machine stops with a fault. The block has no trap and no fatal error, and no command makes it stuck
(R200, 93_implementation_defined.md section 2), so there is no reason (log 15). Safe. -/
inductive Fault where
deriving DecidableEq, Repr

/-- Why a step has no meaning. -/
inductive Refusal where
  /-- An instruction whose arm of `exec` gives it no meaning; raised by no arm of this model. Safe. -/
  | notModelled (mnemonic : String)
  /-- Raised by `busOffset`: a host-bus access of a width other than 16 bits (R62, U1). Safe. -/
  | accessWidth
  /-- Raised by `busOffset`: a host-bus access at an odd address (R64, U2). Safe. -/
  | misaligned
  /-- Raised by `busOffset`: a host-bus access outside `BAM_BASE .. BAM_BASE+31` (R61, U3). Safe. -/
  | outsideBlock
  /-- Raised by `HostAgent.perform`: a display request that would begin while another is in flight, a precondition on
  the host (R190, U4). Safe. -/
  | overlappingRequest
deriving DecidableEq, Repr

/-- The whole machine. -/
@[ext]
structure State where
  /-- Register `MODE` (R21, R23). -/
  mode : Mode
  /-- Register `SEL` (R21). -/
  sel : Slot
  /-- Register `PUL` (R21). -/
  pul : Code
  /-- Register `CMD`: the last accepted command word (R25). -/
  cmd : Word
  /-- `STATUS.BUSY` (R26). -/
  busy : Bool
  /-- `STATUS.ERR_BUSY` (R26). -/
  errBusy : Bool
  /-- `STATUS.ERR_ILLEGAL` (R26). -/
  errIllegal : Bool
  /-- Register `CUR` (R28). -/
  cur : Cur
  /-- The timing registers (R29). -/
  timing : Timing
  /-- `SEQ_PHASES` (R31). -/
  seqPhases : List Phase
  /-- `SEQ_INDEX` (R31). -/
  seqIndex : Nat
  /-- `HOLD_CNT`: clock cycles left before the phase at `SEQ_INDEX` ends; 0 while it is still to be applied (R31,
  R241; log 4). -/
  holdCnt : Nat
  /-- Pin `bus_rdata`; `none` in a cycle without a read (R233; log 8). -/
  busRdata : Option Word
  /-- The host (R7). -/
  host : HostAgent
deriving DecidableEq, Repr

/-- `CUR` after reset and after `SWEEP`: 0x0000 (R33, R131). -/
def Cur.zero : Cur := { slot := 0#3, valid := false, pattern := 0#6 }

/-- The timing registers after reset (R29, R33). -/
def Timing.reset : Timing :=
  { sweepStep := 1#16, pulseHold := 5#16, pulseGap := 1#16,
    prefixSettle := 200#16, charHold := 1500#16, addrSetup := 0#16 }

/-- A host that does nothing: DESIGN CHOICE, safe (log 9), since no rule says what a host does after reset. -/
def HostAgent.idle : HostAgent := { script := [], pace := [], request := none, diagnostics := [] }

/-- The machine right after reset (R33, R230), with an idle host (log 9). -/
def State.reset : State :=
  { mode := .sweep, sel := 0#3, pul := 0#3, cmd := 0#16, busy := false, errBusy := false, errIllegal := false,
    cur := Cur.zero, timing := Timing.reset, seqPhases := [], seqIndex := 0, holdCnt := 0,
    busRdata := none, host := HostAgent.idle }

end Sys2Proof.Machine
end

