-- ==== Sys2Proof/Machine/Operands.lean ====
section
/-!
DEFINITION. Operand forms: the address encoder's two functions (R100, R102), dot sets (R88), and the phase list of
every command (R120 to R155), each a pure function of the decoded command and the timing registers (R121).
-/

namespace Sys2Proof.Machine

/-- The select code of a slot: the select lines carry its binary value (R100). -/
def selCode (s : Slot) : Code := s

/-- The pulse code of a dot position: the table of R102, held as a table. -/
def pulseCode : Position → Code
  | 0 => 0b001#3
  | 1 => 0b010#3
  | 2 => 0b011#3
  | 3 => 0b100#3
  | 4 => 0b101#3
  | 5 => 0b110#3

/-- The pattern of a set of Braille dot numbers 1..6, bit `d-1` for each dot `d`; no pattern if a number is no dot
(R10, R88). DESIGN CHOICE (log 21): R88 gives dot numbers 1..6 and no outcome for another number. -/
def dotSet : List Nat → Option Pattern
  | [] => some 0#6
  | d :: ds => if 1 ≤ d ∧ d ≤ 6 then (dotSet ds).map (· ||| (1#6 <<< (d - 1))) else none

/-- The slots in the order of the sweep's outer loop (R131). -/
def allSlots : List Slot := [0#3, 1#3, 2#3, 3#3, 4#3, 5#3, 6#3, 7#3]

/-- The dot positions in ascending order (R131, R141). -/
def allPositions : List Position := [0, 1, 2, 3, 4, 5]

/-- `PUL <- c`: line C takes bit 2, line B bit 1, line A bit 0, at one instant (R21, R102). -/
def LineSet.pul (c : Code) : LineSet :=
  { pulC := some (c.getLsbD 2), pulB := some (c.getLsbD 1), pulA := some (c.getLsbD 0) }

/-- The sweep step of slot `s` and position `p`; the first one also enters sweep mode and clears `CUR` (R131). -/
def sweepPhase (t : Timing) (s : Slot) (p : Position) : Phase :=
  let first := s = 0#3 ∧ p = 0
  { lines := { LineSet.pul (pulseCode p) with
               sel := some (selCode s), mode := if first then some .sweep else none }
    cur := if first then some Cur.zero else none
    hold := t.sweepStep }

/-- `phases(SWEEP)`: slots outer, positions inner, then the pulse lines back to idle (R131). -/
def sweepPhases (t : Timing) : List Phase :=
  (allSlots.flatMap fun s => allPositions.map fun p => sweepPhase t s p) ++ [{ lines := LineSet.pul 0#3, hold := 0#16 }]

/-- The entry into address mode on slot `s`, with the pattern `CUR` will show (R136, R141). -/
def addressPhase (t : Timing) (s : Slot) (pat : Pattern) : Phase :=
  { lines := { mode := some .address, sel := some (selCode s) }
    cur := some { slot := s, valid := true, pattern := pat }
    hold := t.addrSetup }

/-- `phases(ADDR s)` (R136). -/
def addrPhases (s : Slot) (t : Timing) : List Phase := [addressPhase t s 0#6]

/-- `dotPhases(p)`: lines C, B, A one at a time, each held, then all three low at one instant (R145). -/
def dotPhases (t : Timing) (p : Position) : List Phase :=
  let c := pulseCode p
  [ { lines := { pulC := some (c.getLsbD 2) }, hold := t.pulseHold },
    { lines := { pulB := some (c.getLsbD 1) }, hold := t.pulseHold },
    { lines := { pulA := some (c.getLsbD 0) }, hold := t.pulseHold },
    { lines := LineSet.pul 0#3, hold := t.pulseGap } ]

/-- `phases(PLAY len s pat)`: nothing unless `len = 6` (R142); else the address entry and the active dots in
ascending position order (R141). -/
def playPhases (len : BitVec 3) (s : Slot) (pat : Pattern) (t : Timing) : List Phase :=
  if len = 6#3 then
    addressPhase t s pat :: (allPositions.filter fun p => pat.getLsbD p.val).flatMap (dotPhases t)
  else []

/-- `phases(WAIT SETTLE)` (R150). -/
def waitSettlePhases (t : Timing) : List Phase := [{ lines := {}, hold := t.prefixSettle }]

/-- `phases(WAIT CHAR)` (R150). -/
def waitCharPhases (t : Timing) : List Phase := [{ lines := {}, hold := t.charHold }]

/-- `phases(op, timing registers)` of any command (R121). -/
def phasesOf : Instr → Timing → List Phase
  | .nop, _ => []
  | .sweep, t => sweepPhases t
  | .addr slot, t => addrPhases slot t
  | .play len slot pat, t => playPhases len slot pat t
  | .waitSettle, t => waitSettlePhases t
  | .waitChar, t => waitCharPhases t
  | .illegalWait _, _ => []
  | .illegalOp5 _, _ => []
  | .illegalOp67 _, _ => []
  | .illegalOp8F _, _ => []

/-- Is it a command of a reserved row (R84, R155)? -/
def isReserved : Instr → Bool
  | .nop => false
  | .sweep => false
  | .addr _ => false
  | .play _ _ _ => false
  | .waitSettle => false
  | .waitChar => false
  | .illegalWait _ => true
  | .illegalOp5 _ => true
  | .illegalOp67 _ => true
  | .illegalOp8F _ => true

/-- The time of a phase list in the millisecond trace: the sum of its holds (R132, R143, R243). -/
def duration (ps : List Phase) : Nat := (ps.map fun p => p.hold.toNat).sum

end Sys2Proof.Machine
end

