-- ==== Sys2Proof/Machine/Codec.lean ====
section
/-!
DEFINITION. The reference host's codec: from an 8-bit character code to a dot pattern, or not found (R160 to R168).
-/

namespace Sys2Proof.Machine

/-- Folding: `A`..`Z` to `a`..`z`, every other code as it is (R161). -/
def foldCase (c : Byte) : Byte := if 0x41#8 ≤ c ∧ c ≤ 0x5A#8 then c + 0x20#8 else c

/-- The letters a to z (R162, which marks the dot sets as general knowledge; PRESUMED: log 13). -/
def letterTable : List Pattern :=
  [ 0x01#6, 0x03#6, 0x09#6, 0x19#6, 0x11#6, 0x0B#6, 0x1B#6, 0x13#6, 0x0A#6, 0x1A#6, 0x05#6, 0x07#6, 0x0D#6,
    0x1D#6, 0x15#6, 0x0F#6, 0x1F#6, 0x17#6, 0x0E#6, 0x1E#6, 0x25#6, 0x27#6, 0x3A#6, 0x2D#6, 0x3D#6, 0x35#6 ]

/-- `isDigit`: the codes 0x30..0x39 (R176). -/
def isDigit (c : Byte) : Bool := 0x30#8 ≤ c && c ≤ 0x39#8

/-- Is it a folded letter, 0x61..0x7A (R161, R162)? -/
def isLetter (c : Byte) : Bool := 0x61#8 ≤ c && c ≤ 0x7A#8

/-- The 19 punctuation characters (R165). -/
def punctuation : List Byte :=
  [ 0x2E#8, 0x2C#8, 0x3B#8, 0x3A#8, 0x21#8, 0x3F#8, 0x27#8, 0x22#8, 0x2D#8, 0x28#8,
    0x29#8, 0x2F#8, 0x2A#8, 0x2B#8, 0x3D#8, 0x24#8, 0x25#8, 0x26#8, 0x40#8 ]

/-- Which letter of `letterTable` a digit shows: 1..9 the letters a..i, 0 the letter j (R163). -/
def digitLetter (c : Byte) : Nat := if c = 0x30#8 then 9 else c.toNat - 0x31

/-- `lookup(c)`; `none` is "not found" (R160, R161, R163, R165, R166, R167). No code reaches the digit prefix
(R164). -/
def lookup (cfg : Config) (c : Byte) : Option Pattern :=
  let f := foldCase c
  if isLetter f then letterTable[f.toNat - 0x61]?
  else if isDigit f then letterTable[digitLetter f]?
  else if f ∈ punctuation then some (cfg.punctPattern f)
  else if f = 0x20#8 then some 0#6
  else none

end Sys2Proof.Machine
end

