-- ==== Sys2Proof/Machine/Display.lean ====
section
/-!
DEFINITION. The reference host's orchestrator (R175 to R185): the display state of a request, the command words of one
slot and of one character, and those of a whole request. The debug mirror's channels (R192).
-/

namespace Sys2Proof.Machine

/-- A new request (R175). -/
def DisplayState.init : DisplayState := { displayIndex := 0, isPrevDigit := false, prevSlotIndex := none }

/-- The slot of the next character or digit-prefix: `displayIndex mod 8` (R178, R181). -/
def DisplayState.slot (st : DisplayState) : Slot := BitVec.ofNat 3 st.displayIndex

/-- The words of `emitSlot`: a sweep where the index wraps (R180), then `PLAY` for a pattern, `ADDR` for none
(R178, R183). -/
def slotWords (st : DisplayState) (pat : Option Pattern) : List Word :=
  let wrap := if st.displayIndex ≠ 0 ∧ st.slot = 0#3 then [encode .sweep] else []
  match pat with
  | some p => wrap ++ [encode (.play 6#3 st.slot p)]
  | none => wrap ++ [encode (.addr st.slot)]

/-- The display state after `emitSlot` (R178). -/
def DisplayState.advance (st : DisplayState) : DisplayState := { st with displayIndex := st.displayIndex + 1 }

/-- Does this character begin a run of digits (R178, R182)? -/
def startsDigitRun (st : DisplayState) (c : Byte) : Bool := isDigit c && !st.isPrevDigit

/-- The display state after the digit-prefix slot, if this character takes one (R178 step 1). -/
def DisplayState.afterRunStart (st : DisplayState) (c : Byte) : DisplayState :=
  if startsDigitRun st c then st.advance else st

/-- The command words of one character: the digit-prefix slot and its settle hold where a digit run begins, then the
character's slot and the inter-character hold (R178). -/
def charWords (cfg : Config) (st : DisplayState) (c : Byte) : List Word :=
  (if startsDigitRun st c then slotWords st (some cfg.prefixPattern) ++ [encode .waitSettle] else [])
    ++ slotWords (st.afterRunStart c) (lookup cfg c) ++ [encode .waitChar]

/-- The display state when a character's own slot has been emitted, before its inter-character hold (R178 step 2). -/
def DisplayState.afterSlot (st : DisplayState) (c : Byte) : DisplayState := (st.afterRunStart c).advance

/-- The display state after one character (R178 steps 2 and 3, R184). -/
def DisplayState.afterChar (st : DisplayState) (c : Byte) : DisplayState :=
  { st.afterSlot c with isPrevDigit := isDigit c, prevSlotIndex := some (st.afterRunStart c).slot }

/-- The command words of the characters of a request from a display state on (R178). -/
def textWords (cfg : Config) (st : DisplayState) : List Byte → List Word
  | [] => []
  | c :: cs => charWords cfg st c ++ textWords cfg (st.afterChar c) cs

/-- The command words of `displayText(text)`, in the order it issues them; none for null or empty text
(R178, R179, R180). -/
def displayWords (cfg : Config) : Option (List Byte) → List Word
  | none => []
  | some [] => []
  | some (c :: cs) => encode .sweep :: textWords cfg DisplayState.init (c :: cs)

/-- The display state at the end of the characters (R175, R178). -/
def DisplayState.afterText (st : DisplayState) (text : List Byte) : DisplayState :=
  text.foldl DisplayState.afterChar st

/-- The debug mirror's channel `i` of 0..18, driven from `CUR`: 0..5 the pattern, 7..9 the slot; what the others show
is in no source (R192; log 20). -/
def mirrorChannel (cfg : Config) (c : Cur) (i : Fin 19) : Bool :=
  if i.val ≤ 5 then c.pattern.getLsbD i.val
  else if 7 ≤ i.val ∧ i.val ≤ 9 then c.slot.getLsbD (i.val - 7)
  else cfg.mirrorOther i.val

end Sys2Proof.Machine
end

