-- ==== Sys2Proof/Machine/Assembler.lean ====
section
/-!
DEFINITION. The assembler of the spec (R88, R89): what a line assembles to, its pseudo-commands, and the reading of a
line of text. Nothing of the machine depends on this file.
-/

namespace Sys2Proof.Machine

/-- A line of the assembler with its operands as numbers, not yet checked (R88, R89). -/
inductive AsmLine where
  | nop
  | sweep
  | addr (s : Nat)
  | play (s p len : Nat)
  | waitSettle
  | waitChar
  | word (v : Nat)
  /-- `BLANK s` (R89). -/
  | blank (s : Nat)
  /-- `PREFIX s` (R89). -/
  | digitMark (s : Nat)
  /-- `CHAR s, 'c'` (R89). -/
  | char (s : Nat) (c : Byte)
deriving DecidableEq, Repr

/-- The word of `PLAY`, if every operand is in range (R88). DESIGN CHOICE (log 21): R88 gives the ranges of `PLAY` and no
outcome beyond them; the model rejects the line, as R88 says of `ADDR`. -/
def assemblePlay (s p len : Nat) : Option Word :=
  if s ≤ 7 ∧ p ≤ 63 ∧ len ≤ 7 then
    some (encode (.play (BitVec.ofNat 3 len) (BitVec.ofNat 3 s) (BitVec.ofNat 6 p)))
  else none

/-- The word of `ADDR`, if the slot is in range, else the line is rejected (R88). -/
def assembleAddr (s : Nat) : Option Word := if s ≤ 7 then some (encode (.addr (BitVec.ofNat 3 s))) else none

/-- The word a line assembles to; `none` where the assembler rejects the line (R88, R89). DESIGN CHOICE (log 21): a `.word`
value of more than 16 bits, and `BLANK`, `PREFIX` or `CHAR` with a slot out of range, are rejected as `PLAY` out of range is. -/
def assemble (cfg : Config) : AsmLine → Option Word
  | .nop => some (encode .nop)
  | .sweep => some (encode .sweep)
  | .addr s => assembleAddr s
  | .play s p len => assemblePlay s p len
  | .waitSettle => some (encode .waitSettle)
  | .waitChar => some (encode .waitChar)
  | .word v => if v < 65536 then some (BitVec.ofNat 16 v) else none
  | .blank s => assemblePlay s 0 6
  | .digitMark s => assemblePlay s cfg.prefixPattern.toNat 6
  | .char s c =>
    match lookup cfg c with
    | some p => assemblePlay s p.toNat 6
    | none => assembleAddr s

/-- A token of a line. -/
inductive AsmToken where
  | name (cs : List Char)
  | num (n : Nat)
  | quoted (c : Char)
  | comma
  | equals
  | openSet
  | closeSet
deriving DecidableEq, Repr

/-- A digit of the given base (R88). -/
def asmDigit (base : Nat) (c : Char) : Option Nat :=
  let v :=
    if '0' ≤ c ∧ c ≤ '9' then c.toNat - 48
    else if 'a' ≤ c ∧ c ≤ 'f' then c.toNat - 87
    else if 'A' ≤ c ∧ c ≤ 'F' then c.toNat - 55
    else 16
  if v < base then some v else none

/-- A number from its digits, most significant first; no digits are no number. -/
def asmDigits (base : Nat) : List Char → Option Nat
  | [] => none
  | cs => cs.foldl (fun acc c => acc.bind fun n => (asmDigit base c).map fun d => n * base + d) (some 0)

/-- Decimal, `0x` hexadecimal or `0b` binary (R88). -/
def asmNumber : List Char → Option Nat
  | '0' :: 'x' :: cs => asmDigits 16 cs
  | '0' :: 'b' :: cs => asmDigits 2 cs
  | cs => asmDigits 10 cs

/-- The token of the characters read so far, last first: a number if it begins with a digit, else a name. -/
def asmFlush (acc : List Char) : Option (List AsmToken) :=
  match acc.reverse with
  | [] => some []
  | c :: cs => if '0' ≤ c ∧ c ≤ '9' then (asmNumber (c :: cs)).map fun n => [.num n] else some [.name (c :: cs)]

/-- The one-character tokens; `openSet` and `closeSet` are the braces of a dot set (R88). -/
def asmPunctuation (c : Char) : Option AsmToken :=
  if c = ',' then some .comma
  else if c = '=' then some .equals
  else if c.toNat = 123 then some .openSet
  else if c.toNat = 125 then some .closeSet
  else none

/-- The tokens of a line; `;` (code 59) starts a comment, a quoted character stands between two quotes (code 39)
(R88, R89; log 21). -/
def asmTokens (acc : List Char) : List Char → Option (List AsmToken)
  | [] => asmFlush acc
  | c :: cs =>
    if c.toNat = 59 then asmFlush acc
    else if c = ' ' ∨ c = '\t' then (asmFlush acc).bind fun ts => (asmTokens [] cs).map fun us => ts ++ us
    else if c.toNat = 39 then
      match cs with
      | q :: e :: rest =>
        if e.toNat = 39 then
          (asmFlush acc).bind fun ts => (asmTokens [] rest).map fun us => ts ++ .quoted q :: us
        else none
      | _ => none
    else
      match asmPunctuation c with
      | some t => (asmFlush acc).bind fun ts => (asmTokens [] cs).map fun us => ts ++ t :: us
      | none => asmTokens (c :: acc) cs

/-- The dot numbers of a dot set after its opening brace, and the tokens after its closing one (R88). -/
def asmDots : List AsmToken → Option (List Nat × List AsmToken)
  | .closeSet :: ts => some ([], ts)
  | .num d :: .closeSet :: ts => some ([d], ts)
  | .num d :: .comma :: .num e :: ts => (asmDots (.num e :: ts)).map fun r => (d :: r.1, r.2)
  | _ => none

/-- A pattern operand, a number or a dot set, and the tokens after it (R88). -/
def asmPattern : List AsmToken → Option (Nat × List AsmToken)
  | .num p :: ts => some (p, ts)
  | .openSet :: ts => (asmDots ts).bind fun r => (dotSet r.1).map fun p => (p.toNat, r.2)
  | _ => none

/-- The line that tokens spell; `some none` for a line with no command, `none` where the assembler rejects it
(R88, R89; log 21). -/
def asmLine : List AsmToken → Option (Option AsmLine)
  | [] => some none
  | [.name ['N', 'O', 'P']] => some (some .nop)
  | [.name ['S', 'W', 'E', 'E', 'P']] => some (some .sweep)
  | [.name ['A', 'D', 'D', 'R'], .num s] => some (some (.addr s))
  | .name ['P', 'L', 'A', 'Y'] :: .num s :: .comma :: ts =>
    match asmPattern ts with
    | some (p, []) => some (some (.play s p 6))
    | some (p, [.comma, .name ['l', 'e', 'n'], .equals, .num n]) => some (some (.play s p n))
    | _ => none
  | [.name ['W', 'A', 'I', 'T'], .name ['S', 'E', 'T', 'T', 'L', 'E']] => some (some .waitSettle)
  | [.name ['W', 'A', 'I', 'T'], .name ['C', 'H', 'A', 'R']] => some (some .waitChar)
  | [.name ['.', 'w', 'o', 'r', 'd'], .num v] => some (some (.word v))
  | [.name ['B', 'L', 'A', 'N', 'K'], .num s] => some (some (.blank s))
  | [.name ['P', 'R', 'E', 'F', 'I', 'X'], .num s] => some (some (.digitMark s))
  | [.name ['C', 'H', 'A', 'R'], .num s, .comma, .quoted c] =>
    if c.toNat < 256 then some (some (.char s (BitVec.ofNat 8 c.toNat))) else none
  | _ => none

/-- The words of one line of text: none for a line with no command, one for a command (R88). -/
def assembleText (cfg : Config) (line : List Char) : Option (List Word) :=
  ((asmTokens [] line).bind asmLine).bind fun l =>
    match l with
    | none => some []
    | some l => (assemble cfg l).map fun w => [w]

/-- The words of a program, one command a line (R88). DESIGN CHOICE (log 21): where a line is rejected the whole program
has no words. -/
def assembleProgram (cfg : Config) : List (List Char) → Option (List Word)
  | [] => some []
  | l :: ls => (assembleText cfg l).bind fun ws => (assembleProgram cfg ls).map fun vs => ws ++ vs

end Sys2Proof.Machine
end

