-- ==== Sys2Proof/Machine/Flags.lean ====
section
/-!
DEFINITION. The words the host reads of the registers made of fields (STATUS, LINES, CUR), and every computation of a
flag: raising an error and clearing by writing one (R26 to R28, R200 to R207).
-/

namespace Sys2Proof.Machine

/-- `MODE` as a bit (R23). -/
def Mode.bit : Mode → BitVec 1
  | .sweep => 0#1
  | .address => 1#1

/-- The two errors that set a flag (R201, R204). -/
inductive ErrClass where
  | errBusy
  | errIllegal
deriving DecidableEq, Repr

/-- `raise`: set the sticky flag and do nothing else (R200, R204, R206). This is all that an error does: the block
has no trap entry and no return from one. -/
def State.raise (e : ErrClass) (s : State) : State :=
  match e with
  | .errBusy => { s with errBusy := true }
  | .errIllegal => { s with errIllegal := true }

/-- A write of `w` to `STATUS`: bits 2 and 3 clear their flags, every other bit is ignored (R26). -/
def State.clearFlags (w : Word) (s : State) : State :=
  { s with errBusy := s.errBusy && !w.getLsbD 2, errIllegal := s.errIllegal && !w.getLsbD 3 }

/-- The value of `STATUS` (R26). -/
def State.statusWord (s : State) : Word :=
  0#12 ++ BitVec.ofBool s.errIllegal ++ BitVec.ofBool s.errBusy ++ s.mode.bit ++ BitVec.ofBool s.busy

/-- `STATUS.BUSY` of a value of `STATUS` (R26). -/
def statusBusy (w : Word) : Bool := w.getLsbD 0

/-- `LINES = (8'b0, PUL, SEL, NOT MODE, MODE)`, most significant first (R27). -/
def State.linesWord (s : State) : Word :=
  0#8 ++ s.pul ++ s.sel ++ ~~~s.mode.bit ++ s.mode.bit

/-- The value of `CUR` (R28). -/
def Cur.word (c : Cur) : Word :=
  0#2 ++ c.pattern ++ 0#4 ++ BitVec.ofBool c.valid ++ c.slot

/-- The eight output lines (R2). -/
inductive Line where
  | latchSet
  | latchReset
  | selA
  | selB
  | selC
  | pulA
  | pulB
  | pulC
deriving DecidableEq, Repr

/-- The level a line is driven to, `true` for high, from its register bit (R12, R21, R22). -/
def State.level (s : State) : Line → Bool
  | .latchSet => s.mode == .address
  | .latchReset => !(s.mode == .address)
  | .selA => s.sel.getLsbD 0
  | .selB => s.sel.getLsbD 1
  | .selC => s.sel.getLsbD 2
  | .pulA => s.pul.getLsbD 0
  | .pulB => s.pul.getLsbD 1
  | .pulC => s.pul.getLsbD 2

/-- The `busy` pin equals `STATUS.BUSY` (R71, R233). -/
def State.busyPin (s : State) : Bool := s.busy

end Sys2Proof.Machine
end

