-- ==== Sys2Proof/Machine/Ops.lean ====
section
/-!
DEFINITION. The named operations the meanings and the clock edge are made of: reading and writing registers, applying
a phase, accepting a command's phase list, and one edge of the sequencer (R24 to R31, R120 to R124, R241). Raising
an error, the one thing an error does here, is `State.raise` of Flags.lean (R200, R206).
-/

namespace Sys2Proof.Machine

/-- Set register `CMD` (R25). -/
def State.setCmd (w : Word) (s : State) : State := { s with cmd := w }

/-- Set the timing registers (R29). -/
def State.setTiming (t : Timing) (s : State) : State := { s with timing := t }

/-- Set `SEQ_INDEX` and `HOLD_CNT` (R31). -/
def State.setSequencer (index hold : Nat) (s : State) : State := { s with seqIndex := index, holdCnt := hold }

/-- Set the read-data pin (R233). -/
def State.setRdata (r : Option Word) (s : State) : State := { s with busRdata := r }

/-- Set the host agent (R7). -/
def State.setHost (h : HostAgent) (s : State) : State := { s with host := h }

/-- `PUL` from the levels of lines C, B, A (R21). -/
def pulOfLines (c b a : Bool) : Code := BitVec.ofBool c ++ BitVec.ofBool b ++ BitVec.ofBool a

/-- `Apply(U)`: every assignment of `U` at one instant, and no other line (R11, R120). -/
def State.applyLines (u : LineSet) (s : State) : State :=
  { s with
    mode := u.mode.getD s.mode
    sel := u.sel.getD s.sel
    pul := pulOfLines (u.pulC.getD (s.pul.getLsbD 2)) (u.pulB.getD (s.pul.getLsbD 1))
      (u.pulA.getD (s.pul.getLsbD 0)) }

/-- The instant of a phase: its `Apply` and, on a command's first phase, the command's effect on `CUR` (R121). -/
def State.applyPhase (p : Phase) (s : State) : State :=
  { s.applyLines p.lines with cur := p.cur.getD s.cur }

/-- The instants of several phases one after another (R122). -/
def State.applyPhases (ps : List Phase) (s : State) : State := ps.foldl (fun s p => s.applyPhase p) s

/-- Acceptance of a command whose phase list is `ps`: `BUSY <- 1`, `SEQ_PHASES <- ps`, `SEQ_INDEX <- 0` (R121). No
phase is applied yet, so no hold is running (R241; log 4). -/
def State.startCommand (ps : List Phase) (s : State) : State :=
  { s with busy := true, seqPhases := ps, seqIndex := 0, holdCnt := 0 }

/-- Completion: `BUSY <- 0`, `SEQ_PHASES <- []` (R122), the sequencer idle as after reset (R31, R33; log 4). -/
def State.finishCommand (s : State) : State :=
  { s with busy := false, seqPhases := [], seqIndex := 0, holdCnt := 0 }

/-- `n_k = max(1, d_k * CLK_PER_MS)`, the cycles of a phase (R241). -/
def holdCycles (clk : Nat) (d : Word) : Nat := max 1 (d.toNat * clk)

/-- The cycles of a phase list, one phase after another with no gap (R122, R241). -/
def cyclesOf (clk : Nat) (ps : List Phase) : Nat := (ps.map fun p => holdCycles clk p.hold).sum

/-- The edge at which phase `k` begins, or at which the command completes if there is no phase `k` (R122, R241). -/
def State.enterPhase (clk k : Nat) (s : State) : State :=
  match s.seqPhases[k]? with
  | some p => (s.applyPhase p).setSequencer k (holdCycles clk p.hold)
  | none => s.finishCommand

/-- One edge of the sequencer. After acceptance the first phase begins; a running hold loses a cycle; the edge that
ends a hold begins the next phase or completes the command (R122, R241). -/
def State.sequencerEdge (clk : Nat) (s : State) : State :=
  if s.busy then
    if s.holdCnt = 0 then s.enterPhase clk s.seqIndex
    else if s.holdCnt = 1 then s.enterPhase clk (s.seqIndex + 1)
    else s.setSequencer s.seqIndex (s.holdCnt - 1)
  else s

/-- The value a read of offset `n` returns (R24 to R30). -/
def State.readReg (n : Offset) (s : State) : Word :=
  if n = 0x0#4 then s.cmd
  else if n = 0x1#4 then s.statusWord
  else if n = 0x2#4 then s.linesWord
  else if n = 0x3#4 then s.cur.word
  else if n = 0x4#4 then s.timing.sweepStep
  else if n = 0x5#4 then s.timing.pulseHold
  else if n = 0x6#4 then s.timing.pulseGap
  else if n = 0x7#4 then s.timing.prefixSettle
  else if n = 0x8#4 then s.timing.charHold
  else if n = 0x9#4 then s.timing.addrSetup
  else 0#16

/-- Is `n` the offset of a timing register (R29)? -/
def isTimingOffset (n : Offset) : Bool := 0x4#4 ≤ n && n ≤ 0x9#4

/-- Store `v` in the timing register at offset `n`; other offsets name none (R29). -/
def Timing.write (n : Offset) (v : Word) (t : Timing) : Timing :=
  if n = 0x4#4 then { t with sweepStep := v }
  else if n = 0x5#4 then { t with pulseHold := v }
  else if n = 0x6#4 then { t with pulseGap := v }
  else if n = 0x7#4 then { t with prefixSettle := v }
  else if n = 0x8#4 then { t with charHold := v }
  else if n = 0x9#4 then { t with addrSetup := v }
  else t

/-- `rst = 1` at an edge: every piece of block state takes its reset value (R230, R231); the host is no part of the
block and goes on (log 18). -/
def State.resetBlock (s : State) : State := State.reset.setHost s.host

end Sys2Proof.Machine
end

