-- ==== Sys2Proof/Machine/Illegal.lean ====
section
/-!
DEFINITION. The meanings of the reserved rows of the opcode map: accepted like any command, no phase, ErrIllegal at
acceptance (R86, R155, R203).
-/

namespace Sys2Proof.Machine

/-- An accepted reserved word: no phase and `raise ErrIllegal` (R155). -/
def State.startIllegal (s : State) : State := (s.startCommand []).raise .errIllegal

/-- Opcode 0x4 with `WSEL` 2 or 3 (R155). -/
def execIllegalWait (_w : Word) (s : State) : Host.Outcome State Fault Refusal := .next s.startIllegal

/-- Opcode 0x5 (R155). -/
def execIllegalOp5 (_w : Word) (s : State) : Host.Outcome State Fault Refusal := .next s.startIllegal

/-- Opcodes 0x6 and 0x7 (R155). -/
def execIllegalOp67 (_w : Word) (s : State) : Host.Outcome State Fault Refusal := .next s.startIllegal

/-- Opcodes 0x8 to 0xF (R155). -/
def execIllegalOp8F (_w : Word) (s : State) : Host.Outcome State Fault Refusal := .next s.startIllegal

end Sys2Proof.Machine
end

