-- ==== Sys2Proof/Machine/Sequence.lean ====
section
/-!
DEFINITION. The meanings of NOP, SWEEP, ADDR and PLAY: what acceptance of the decoded command does (R121). `CMD <- w` is
the accepting access's own (Edge.lean, log 2); the phases are performed by the edges that follow (R122, log 2).
-/

namespace Sys2Proof.Machine

/-- `NOP` (R125). -/
def execNop (s : State) : Host.Outcome State Fault Refusal :=
  .next (s.startCommand [])

/-- `SWEEP` (R131). -/
def execSweep (s : State) : Host.Outcome State Fault Refusal :=
  .next (s.startCommand (sweepPhases s.timing))

/-- `ADDR s` (R136). -/
def execAddr (slot : Slot) (s : State) : Host.Outcome State Fault Refusal :=
  .next (s.startCommand (addrPhases slot s.timing))

/-- `PLAY`, well formed (R141) or malformed (R142). -/
def execPlay (len : BitVec 3) (slot : Slot) (pat : Pattern) (s : State) : Host.Outcome State Fault Refusal :=
  .next (s.startCommand (playPhases len slot pat s.timing))

end Sys2Proof.Machine
end

