-- ==== Sys2Proof/Machine/Wait.lean ====
section
/-!
DEFINITION. The meanings of the two WAIT commands: one pure hold each (R150).
-/

namespace Sys2Proof.Machine

/-- `WAIT SETTLE`: hold for `T_PREFIX_SETTLE` (R150). -/
def execWaitSettle (s : State) : Host.Outcome State Fault Refusal :=
  .next (s.startCommand (waitSettlePhases s.timing))

/-- `WAIT CHAR`: hold for `T_CHAR_HOLD` (R150). -/
def execWaitChar (s : State) : Host.Outcome State Fault Refusal :=
  .next (s.startCommand (waitCharPhases s.timing))

end Sys2Proof.Machine
end

