-- ==== Sys2Proof/Machine/Dispatch.lean ====
section
/-!
DEFINITION. One arm per command: its meaning at acceptance (R121).
-/

namespace Sys2Proof.Machine

def exec (i : Instr) (s : State) : Host.Outcome State Fault Refusal :=
  match i with
  | .nop => Sys2Proof.Machine.execNop s
  | .sweep => Sys2Proof.Machine.execSweep s
  | .addr slot => Sys2Proof.Machine.execAddr slot s
  | .play len slot pat => Sys2Proof.Machine.execPlay len slot pat s
  | .waitSettle => Sys2Proof.Machine.execWaitSettle s
  | .waitChar => Sys2Proof.Machine.execWaitChar s
  | .illegalWait w => Sys2Proof.Machine.execIllegalWait w s
  | .illegalOp5 w => Sys2Proof.Machine.execIllegalOp5 w s
  | .illegalOp67 w => Sys2Proof.Machine.execIllegalOp67 w s
  | .illegalOp8F w => Sys2Proof.Machine.execIllegalOp8F w s

end Sys2Proof.Machine
end

