-- ==== Sys2Proof/Machine/Edge.lean ====
section
/-!
DEFINITION. One rising edge of `clk` for the block: reset, the sequencer's own event, and the host access of the cycle
(R65, R69, R230, R233, R241).
-/

namespace Sys2Proof.Machine

/-- The block's input pins at an edge (R233). -/
structure Pins where
  rst : Bool
  access : Option Access
deriving DecidableEq, Repr

/-- No reset and no access (R233). -/
def Pins.quiet : Pins := { rst := false, access := none }

/-- A `CMD` write while idle: `CMD <- w`, and the decoded command starts (R25, R121). -/
def State.accept (w : Word) (s : State) : Host.Outcome State Fault Refusal :=
  exec (decode w) (s.setCmd w)

/-- A host write of `v` to offset `n`; `busy` is the `BUSY` it finds. `CMD` and the timing registers are guarded
(R25, R29, R202), `STATUS` clears flags (R26), `LINES`, `CUR` and the reserved offsets ignore it (R27, R28, R30). -/
def State.writeReg (busy : Bool) (n : Offset) (v : Word) (s : State) : Host.Outcome State Fault Refusal :=
  if n = 0x0#4 then
    if busy then .next (s.raise .errBusy) else s.accept v
  else if n = 0x1#4 then .next (s.clearFlags v)
  else if isTimingOffset n then
    if busy then .next (s.raise .errBusy) else .next (s.setTiming (s.timing.write n v))
  else .next s

/-- The `BUSY` a write finds: what the sequencer's event of this edge left. At the very edge where a command completes
the spec does not say whether a write still finds 1, so the platform says (DESIGN CHOICE, safe: log 6, log 7). -/
def busySeen (cfg : Config) (before after : State) : Bool :=
  if before.busy && !after.busy then cfg.lateWriteSeesBusy else after.busy

/-- The host access of a cycle, after the sequencer's event of its edge (R69; log 7). A read returns the value after
the edge and changes nothing (R66, R233). -/
def State.performAccess (busy : Bool) (s : State) : Option Access → Host.Outcome State Fault Refusal
  | none => .next s
  | some (.read n) => .next (s.setRdata (some (s.readReg n)))
  | some (.write n v) => s.writeReg busy n v

/-- One rising edge of `clk`. Reset wins over everything (R205, R230, R231); else the sequencer's event, then the
access of the cycle (R69, R241). -/
def State.clockEdge (cfg : Config) (pins : Pins) (s : State) : Host.Outcome State Fault Refusal :=
  if pins.rst then .next s.resetBlock
  else
    let after := s.sequencerEdge cfg.clkPerMs
    (after.setRdata none).performAccess (busySeen cfg s after) pins.access

end Sys2Proof.Machine
end

