-- ==== Sys2Proof/Machine/HostTurn.lean ====
section
/-!
DEFINITION. The host agent's turn at an edge: what it drives on the pins (R61 to R64, R177, R178, R233), and the whole
machine's edge, host and block together.
-/

namespace Sys2Proof.Machine

/-- The word offset a host-bus access reaches, or why a model refuses it (R61, R62, R64; U1, U2, U3; log 14). -/
def busOffset (cfg : Config) (addr width : Nat) : Except Refusal Offset :=
  if width ≠ 2 then .error .accessWidth
  else if addr % 2 ≠ 0 then .error .misaligned
  else if cfg.bamBase ≤ addr ∧ addr < cfg.bamBase + 32 then .ok (BitVec.ofNat 4 ((addr - cfg.bamBase) / 2))
  else .error .outsideBlock

/-- `issue(w)`: write `CMD`, then read `STATUS` until `BUSY = 0` (R177). -/
def issue (w : Word) : List HostOp := [.access (.write 0x0#4 w), .poll]

/-- What the reference host does for one character, in the order of R178: the digit-prefix slot and its settle hold where
a digit run begins (step 1); a diagnostic if the character is unmapped, its slot and the inter-character hold (step 2);
and the new display state (step 3). `displayIndex` goes up where `emitSlot` has issued a slot's command. -/
def charOps (cfg : Config) (st : DisplayState) (c : Byte) : List HostOp :=
  (if startsDigitRun st c then
    (slotWords st (some cfg.prefixPattern)).flatMap issue ++ .note st.advance [] :: issue (encode .waitSettle)
  else [])
    ++ (if lookup cfg c = none then [.note (st.afterRunStart c) [.unmapped c]] else [])
    ++ (slotWords (st.afterRunStart c) (lookup cfg c)).flatMap issue
    ++ .note (st.afterSlot c) [] :: issue (encode .waitChar)
    ++ [.note (st.afterChar c) []]

/-- A step of the reference host's program at the head of the script, replaced by what it comes to (R178, R179). Any
other head is left as it is. -/
def HostAgent.expand (cfg : Config) (h : HostAgent) : HostAgent :=
  match h.script with
  | .displayText none :: rest =>
    { h with script := rest, diagnostics := h.diagnostics ++ [.inputRejected] }
  | .displayText (some []) :: rest =>
    { h with script := rest, diagnostics := h.diagnostics ++ [.inputRejected] }
  | .displayText (some (c :: cs)) :: rest =>
    { h with script := issue (encode .sweep) ++ .displayChars (c :: cs) :: rest, request := some DisplayState.init }
  | .displayChars [] :: rest => { h with script := rest, request := none }
  | .displayChars (c :: cs) :: rest =>
    { h with script := charOps cfg (h.request.getD DisplayState.init) c ++ .displayChars cs :: rest }
  | .note st ds :: rest => { h with script := rest, request := some st, diagnostics := h.diagnostics ++ ds }
  | _ => h

/-- What the host does at an edge: the pins it drives, itself afterwards, and whether the access is a poll, which is
taken off the script once it reads `BUSY = 0`. -/
structure Turn where
  pins : Pins
  host : HostAgent
  polling : Bool
deriving DecidableEq, Repr

/-- The operation at the head of the script, performed now. A step of the reference host's program that stands at the
head even after `expand` waits for the next edge (log 19). -/
def HostAgent.act (cfg : Config) (h : HostAgent) : Except Refusal Turn :=
  match h.script with
  | .access a :: rest => .ok ⟨⟨false, some a⟩, { h with script := rest }, false⟩
  | .reset a :: rest => .ok ⟨⟨true, a⟩, { h with script := rest }, false⟩
  | .memRead addr width :: rest =>
    (busOffset cfg addr width).map fun n => ⟨⟨false, some (.read n)⟩, { h with script := rest }, false⟩
  | .memWrite addr width v :: rest =>
    (busOffset cfg addr width).map fun n => ⟨⟨false, some (.write n v)⟩, { h with script := rest }, false⟩
  | .poll :: _ => .ok ⟨⟨false, some (.read 0x1#4)⟩, h, true⟩
  | .displayText _ :: _ => .ok ⟨Pins.quiet, h, false⟩
  | .displayChars _ :: _ => .ok ⟨Pins.quiet, h, false⟩
  | .note _ _ :: _ => .ok ⟨Pins.quiet, h, false⟩
  | [] => .ok ⟨Pins.quiet, h, false⟩

/-- Would the head of the script begin a display request while one is in flight (R190)? -/
def HostAgent.overlaps (h : HostAgent) : Bool :=
  match h.script with
  | .displayText (some (_ :: _)) :: _ => h.request.isSome
  | _ => false

/-- The next operation of the script, performed now. A second request while one is in flight is refused (R190; U4). -/
def HostAgent.perform (cfg : Config) (h : HostAgent) : Except Refusal Turn :=
  if h.overlaps then .error .overlappingRequest else (h.expand cfg).act cfg

/-- The host's turn: nothing if its script is empty or it still lets cycles pass (R242; log 9), else its next
operation. -/
def HostAgent.turn (cfg : Config) (h : HostAgent) : Except Refusal Turn :=
  match h.script, h.pace with
  | [], _ => .ok ⟨Pins.quiet, h, false⟩
  | _ :: _, (n + 1) :: ps => .ok ⟨Pins.quiet, { h with pace := n :: ps }, false⟩
  | _ :: _, 0 :: ps => { h with pace := ps }.perform cfg
  | _ :: _, [] => h.perform cfg

/-- A poll that has read `BUSY = 0` is done (R177). -/
def State.settlePoll (s : State) : State :=
  match s.busRdata with
  | some w => if statusBusy w then s else s.setHost { s.host with script := s.host.script.tail }
  | none => s

/-- The machine's edge on a platform: the host's turn drives the pins, and the block takes the edge. -/
def machineEdge (cfg : Config) (s : State) : Host.Outcome State Fault Refusal :=
  match s.host.turn cfg with
  | .error r => .refused r
  | .ok turn =>
    match (s.setHost turn.host).clockEdge cfg turn.pins with
    | .next t => if turn.polling then .next t.settlePoll else .next t
    | .fault r => .fault r
    | .refused r => .refused r

/-- The operation by which a host issues one command word on the pins, as its very next (R25, R233). -/
def HostAgent.writeNext (w : Word) (h : HostAgent) : HostAgent :=
  { h with script := .access (.write 0x0#4 w) :: h.script, pace := 0 :: h.pace }

end Sys2Proof.Machine
end

