-- ==== Sys2Proof/Machine/Trace.lean ====
section
/-!
DEFINITION. The normative time of the block: the millisecond phase trace (R120, R122, R240). It is read off a phase
list and the lines it starts from; the cycle-by-cycle machine is Edge.lean.
-/

namespace Sys2Proof.Machine

/-- An entry of a phase trace: at `at` ms after the first `Apply`, `LINES` takes `lines`, then held `hold` ms. -/
structure TraceEntry where
  atMs : Nat
  lines : Word
  holdMs : Nat
deriving DecidableEq, Repr

/-- The phase trace of a phase list that begins at time `t` in state `s` (R122, R240). -/
def phaseTrace (t : Nat) (s : State) : List Phase → List TraceEntry
  | [] => []
  | p :: ps =>
    let s' := s.applyPhase p
    ⟨t, s'.linesWord, p.hold.toNat⟩ :: phaseTrace (t + p.hold.toNat) s' ps

/-- The phase trace of a command accepted in state `s`. -/
def commandTrace (s : State) (i : Instr) : List TraceEntry := phaseTrace 0 s (phasesOf i s.timing)

end Sys2Proof.Machine
end

