-- ==== Sys2Proof/Machine/Step.lean ====
section
/-!
DEFINITION. One step of the machine: one rising edge of `clk` on the platform (log 1); and how a command word is put
where the next step takes it (log 10).
-/

namespace Sys2Proof.Machine

/-- One step: one rising edge of `clk`, host and block together (R233, R241). -/
def step (s : State) : Host.Outcome State Fault Refusal := machineEdge Config.platform s

/-- `s` with the command word `w` (its low `nbits` bits) as the host's very next `CMD` write, and the sequencer idle so
that the write is accepted at the next step (R25, R121; log 10). -/
def State.withFetchWord (s : State) (nbits w : Nat) : State :=
  s.finishCommand.setHost (s.host.writeNext (BitVec.ofNat 16 (w % 2 ^ nbits)))

end Sys2Proof.Machine
end

