-- ==== Sys2Proof/Safety.lean ====
section
/-!
DEFINITION. What counts as a safe state and a safe run, in the terms the claims use: the machine's invariant (R34, R35,
R121, R122), the discipline of a host that waits (R177), and the command words and diagnostics that a host still has to
issue and to give (R178, R191).
-/

namespace Sys2Proof.Machine

/-- The same state with the pulse lines idle (R33). -/
def State.withIdlePulse (s : State) : State := { s with pul := 0#3 }

/-- The invariant of the machine. Every state reached from reset has it, whatever the host does. -/
structure State.Inv (s : State) : Prop where
  /-- A valid `CUR` names the slot the lines address (R35). -/
  cur_addressed : s.cur.valid = true → s.mode = .address ∧ s.sel = s.cur.slot
  /-- While idle the pulse lines are idle (R34) and the sequencer holds nothing (R31, R122). -/
  idle : s.busy = false → s.pul = 0#3 ∧ s.seqPhases = [] ∧ s.seqIndex = 0 ∧ s.holdCnt = 0
  /-- While busy the phases are those of the accepted word at the timing registers as they are (R73, R121, R246). -/
  program : s.busy = true → s.seqPhases = phasesOf (decode s.cmd) s.timing
  /-- Between acceptance and the first `Apply` no phase has run and the pulse lines are idle (R34, R241). -/
  pending : s.busy = true → s.holdCnt = 0 → s.seqIndex = 0 ∧ s.pul = 0#3
  /-- While a phase is held, the lines and `CUR` are what the phases so far made of idle pulse lines (R122, R124). -/
  applied : s.busy = true → s.holdCnt ≠ 0 →
    s.seqIndex < s.seqPhases.length ∧
      s.withIdlePulse.applyPhases (s.seqPhases.take (s.seqIndex + 1)) = s

/-- The operation `op` is at the head of the script, the host lets no cycle pass before it, and `h` is the host once it
has taken `op` off (R69, R242). -/
def State.Due (s : State) (op : HostOp) (h : HostAgent) : Prop :=
  s.host.script = op :: h.script ∧ (s.host.pace = 0 :: h.pace ∨ s.host.pace = [] ∧ h.pace = []) ∧
    h.request = s.host.request ∧ h.diagnostics = s.host.diagnostics

/-- A script of a host that waits: its only accesses are writes of `CMD`, each followed by a poll (R177). -/
def waitingScript : List HostOp → Bool
  | [] => true
  | .access (.write n _) :: .poll :: rest => n == 0x0#4 && waitingScript rest
  | .poll :: rest => waitingScript rest
  | .displayText _ :: rest => waitingScript rest
  | .displayChars _ :: rest => waitingScript rest
  | .note _ _ :: rest => waitingScript rest
  | .access _ :: _ => false
  | .reset _ :: _ => false
  | .memRead _ _ :: _ => false
  | .memWrite _ _ _ :: _ => false

/-- The host waits: its script is one of a host that waits, and while the block is busy it is polling (R177). -/
def State.HostWaits (s : State) : Prop :=
  waitingScript s.host.script = true ∧ (s.busy = true → s.host.script.head? = some .poll)

/-- The command words a script still has to issue, from a request in flight (R177, R178). -/
def scriptWords (cfg : Config) (request : Option DisplayState) : List HostOp → List Word
  | [] => []
  | .access (.write n w) :: rest => if n = 0x0#4 then w :: scriptWords cfg request rest else scriptWords cfg request rest
  | .displayText (some text) :: rest =>
    displayWords cfg (some text) ++ scriptWords cfg (if text = [] then request else none) rest
  | .displayChars text :: rest =>
    textWords cfg (request.getD DisplayState.init) text ++ scriptWords cfg none rest
  | .displayText none :: rest => scriptWords cfg request rest
  | .access (.read _) :: rest => scriptWords cfg request rest
  | .reset _ :: rest => scriptWords cfg request rest
  | .memRead _ _ :: rest => scriptWords cfg request rest
  | .memWrite _ _ _ :: rest => scriptWords cfg request rest
  | .poll :: rest => scriptWords cfg request rest
  | .note st _ :: rest => scriptWords cfg (some st) rest

/-- The command words the host still has to issue (R178). -/
def State.wordsToIssue (cfg : Config) (s : State) : List Word := scriptWords cfg s.host.request s.host.script

/-- The diagnostics of a text's unmapped characters, in their order (R183). -/
def textDiagnostics (cfg : Config) (text : List Byte) : List Diagnostic :=
  (text.filter fun c => (lookup cfg c).isNone).map .unmapped

/-- The diagnostics a script still has to give (R178, R179, R183). -/
def scriptDiagnostics (cfg : Config) : List HostOp → List Diagnostic
  | [] => []
  | .displayText none :: rest => .inputRejected :: scriptDiagnostics cfg rest
  | .displayText (some []) :: rest => .inputRejected :: scriptDiagnostics cfg rest
  | .displayText (some (c :: cs)) :: rest => textDiagnostics cfg (c :: cs) ++ scriptDiagnostics cfg rest
  | .displayChars text :: rest => textDiagnostics cfg text ++ scriptDiagnostics cfg rest
  | .note _ ds :: rest => ds ++ scriptDiagnostics cfg rest
  | .access _ :: rest => scriptDiagnostics cfg rest
  | .reset _ :: rest => scriptDiagnostics cfg rest
  | .memRead _ _ :: rest => scriptDiagnostics cfg rest
  | .memWrite _ _ _ :: rest => scriptDiagnostics cfg rest
  | .poll :: rest => scriptDiagnostics cfg rest

/-- The host of a state having given `ds` before all else. -/
def State.withDiagnostics (ds : List Diagnostic) (s : State) : State :=
  s.setHost { s.host with diagnostics := ds ++ s.host.diagnostics }

end Sys2Proof.Machine
end

