-- ==== Sys2Proof/Certificates/Slice0/Obligations.lean ====
section
/-!
DEFINITION. The statements for the provers. Each says what a numbered rule of spec/ says the machine does, or, where its
docstring says so, what the model chose where the spec is silent. `step` is one rising edge of `clk` on an
uninterpreted platform, so every statement holds for every `CLK_PER_MS`, `BAM_BASE`, `PREFIX_PATTERN` and
`PUNCT_PATTERN`.
-/

namespace Sys2Proof.Statements

open Sys2Proof.Machine

/-- `CLK_PER_MS` of the platform (R8). -/
abbrev clk : Nat := Config.platform.clkPerMs

/-- A host that does nothing more (R7). -/
abbrev Silent (s : State) : Prop := s.host.script = []

/-- `n` edges take the machine from `s` to `t`. -/
abbrev Takes (n : Nat) (s t : State) : Prop := Sys2Proof.core.run n s = .next t

/-- Right after acceptance: `BUSY = 1`, the phase list taken up, nothing applied yet (R121). -/
def accepted (s : State) (ps : List Phase) : State :=
  { s with busy := true, seqPhases := ps, seqIndex := 0, holdCnt := 0 }

/-- A completed command: `BUSY = 0`, the sequencer idle (R122), and no read on the pins in the last cycle (`busRdata` is
then `none`, the model's choice: log 8). -/
def idleAgain (s : State) : State :=
  { s with busy := false, seqPhases := [], seqIndex := 0, holdCnt := 0, busRdata := none }

/-- `n_k = max(1, d_k * CLK_PER_MS)` (R241). -/
def cycles (d : Word) : Nat := max 1 (d.toNat * clk)

/-- The active dots of a pattern, in ascending position order (R141). -/
def activeDots (pat : Pattern) : List Position :=
  [(0 : Position), 1, 2, 3, 4, 5].filter fun p => pat.getLsbD p.val

/-- The block's edge without its access: the sequencer's own event (R241), the host now `h` and no read on the pins
(log 8). -/
def edged (s : State) (h : HostAgent) : State := { s.sequencerEdge clk with busRdata := none, host := h }

/-- The bits of a word that matter to the block: the row's fixed bits and the fields its command uses (R84, R85). -/
def usedBits (w : Word) : Word :=
  let op := (w >>> 12).toNat
  if op = 0x2 then 0xF1C0#16
  else if op = 0x3 then if w.extractLsb' 9 3 = 6#3 then 0xFFFF#16 else 0xFE00#16
  else if op = 0x4 then if w.getLsbD 1 then 0xF002#16 else 0xF003#16
  else if op = 0x6 ∨ op = 0x7 then 0xE000#16
  else if 0x8 ≤ op then 0x8000#16
  else 0xF000#16

/-- The bits not marked `x` in the row of an assigned command (R84). -/
def namedBits : Instr → Word
  | .nop => 0xF000#16
  | .sweep => 0xF000#16
  | .addr _ => 0xF1C0#16
  | .play _ _ _ => 0xFFFF#16
  | .waitSettle => 0xF003#16
  | .waitChar => 0xF003#16
  | .illegalWait _ => 0xFFFF#16
  | .illegalOp5 _ => 0xFFFF#16
  | .illegalOp67 _ => 0xFFFF#16
  | .illegalOp8F _ => 0xFFFF#16

/-- The opcode map as R84 prints it: mnemonic of the table, match, mask. -/
def printedMap : List OpcodeRow :=
  [ ⟨"NOP", 0x0000#16, 0xF000#16⟩, ⟨"SWEEP", 0x1000#16, 0xF000#16⟩, ⟨"ADDR", 0x2000#16, 0xF000#16⟩,
    ⟨"PLAY", 0x3000#16, 0xF000#16⟩, ⟨"WAIT_SETTLE", 0x4000#16, 0xF003#16⟩, ⟨"WAIT_CHAR", 0x4001#16, 0xF003#16⟩,
    ⟨"ILLEGAL__WAIT_WSEL_2_3", 0x4002#16, 0xF002#16⟩, ⟨"ILLEGAL__OP_0x5", 0x5000#16, 0xF000#16⟩,
    ⟨"ILLEGAL__OP_0x6-0x7", 0x6000#16, 0xE000#16⟩, ⟨"ILLEGAL__OP_0x8-0xF", 0x8000#16, 0x8000#16⟩ ]

/-- What a command word is to the slot count: a sweep, an addressed slot, or neither (R180, R181). -/
def slotEvent (w : Word) : Option (Option Slot) :=
  match decode w with
  | .sweep => some none
  | .addr s => some (some s)
  | .play _ s _ => some (some s)
  | .nop => none
  | .waitSettle => none
  | .waitChar => none
  | .illegalWait _ => none
  | .illegalOp5 _ => none
  | .illegalOp67 _ => none
  | .illegalOp8F _ => none

/-- The number of maximal runs of digits in a text: the places where a digit has no digit before it (R182). -/
def digitRuns (text : List Byte) : Nat :=
  ((List.range text.length).filter fun i =>
    isDigit (text.getD i 0#8) && (i == 0 || !isDigit (text.getD (i - 1) 0#8))).length

/-- The dots that a command word pulses (R143, R185). -/
def dotsOf (w : Word) : Nat :=
  match decode w with
  | .play len _ pat => if len = 6#3 then (activeDots pat).length else 0
  | .nop => 0
  | .sweep => 0
  | .addr _ => 0
  | .waitSettle => 0
  | .waitChar => 0
  | .illegalWait _ => 0
  | .illegalOp5 _ => 0
  | .illegalOp67 _ => 0
  | .illegalOp8F _ => 0

/-- An operation that by itself can be no refused access and no refused request. -/
def plainOp : HostOp → Bool
  | .access _ => true
  | .reset _ => true
  | .poll => true
  | .displayChars _ => true
  | .memRead _ _ => false
  | .memWrite _ _ _ => false
  | .displayText _ => false
  | .note _ _ => true

end Sys2Proof.Statements

open Sys2Proof Sys2Proof.Machine Sys2Proof.Statements

/-! ## Encoding -/

/-- Every well-formed command is what the decoder reads from its word (R84, R87, R88). -/
def Obligations.DecodeOfEncodeIsIdentity : Prop := ∀ i : Instr, i.wf = true → decode (encode i) = i

/-- R84: the opcode map is the printed one, with its fields where the letters stand; every word matches exactly one row of
it, and that is the row of the command the decoder reads, which is well formed. -/
def Obligations.OpcodeMapPartitionsAllWords : Prop :=
  opcodeTable = printedMap ∧
  (∀ (slot : Slot) (w : Word), decode w = .addr slot → slot = w.extractLsb' 6 3) ∧
  (∀ (len : BitVec 3) (slot : Slot) (pat : Pattern) (w : Word), decode w = .play len slot pat →
    len = w.extractLsb' 9 3 ∧ slot = w.extractLsb' 6 3 ∧ pat = w.extractLsb' 0 6) ∧
  ∀ w : Word, (printedMap.filter fun r => (w &&& r.mask) == r.fixed) = [(decode w).row] ∧ (decode w).wf = true

/-- R85: two words that differ only in ignored bits behave identically, a `PLAY` with `LEN ≠ 6` ignoring `SLOT` and
`PAT` too; and the encoder writes the bits marked `x` as 0. -/
def Obligations.IgnoredBitsHaveNoEffect : Prop :=
  (∀ (w w' : Word) (s : State), (w &&& usedBits w) = (w' &&& usedBits w) → exec (decode w) s = exec (decode w') s) ∧
  ∀ i : Instr, (encode i &&& ~~~namedBits i) = 0#16

/-- Words written out from R84's rows decode to their commands, as words and as the byte lanes of R63. -/
def Obligations.DecodesWordsWrittenOut : Prop :=
  decode 0b0000111111111111#16 = .nop ∧
  decode 0b0001000000000000#16 = .sweep ∧
  decode 0b0010000011000000#16 = .addr 3#3 ∧
  decode 0b0011110111111111#16 = .play 6#3 7#3 0x3F#6 ∧
  decode 0b0011101010001001#16 = .play 5#3 2#3 0x09#6 ∧
  decode 0b0100000000000000#16 = .waitSettle ∧
  decode 0b0100111111111101#16 = .waitChar ∧
  decode 0b0100000000000011#16 = .illegalWait 0x4003#16 ∧
  decode 0b0101000000000000#16 = .illegalOp5 0x5000#16 ∧
  decode 0b0110101010111100#16 = .illegalOp67 0x6ABC#16 ∧
  decode 0b1001000000000000#16 = .illegalOp8F 0x9000#16 ∧
  decodeBytes [0x3C#8, 0x3C#8, 0x00#8] = .ok (.play 6#3 0#3 0x3C#6, [0x00#8]) ∧
  decodeBytes [0x3C#8] = .error .truncated

/-! ## The commands -/

/-- R125: any word with opcode 0 is `NOP`; accepted, it writes `CMD`, takes up no phase and completes at the next edge
with no line, no `CUR` and no flag written. -/
def Obligations.NopCompletesAtOnce : Prop :=
  (∀ w : Word, w.extractLsb' 12 4 = 0x0#4 → decode w = .nop ∧
    ∀ s : State, s.accept w = .next (accepted { s with cmd := w } [])) ∧
  ∀ s : State, exec .nop s = .next (accepted s []) ∧ (Silent s → Takes 1 (accepted s []) (idleAgain s))

/-- R131: `SWEEP` takes up 49 phases, step `(k, p)` at index `6k+p` with both codes at one instant and the mode change
and the clearing of `CUR` in the first, then the idle pulse lines; run to its end it leaves sweep mode, `SEL = 7`,
`PUL = 0`, `CUR = 0`. -/
def Obligations.SweepStepsThroughAllSlotsAndPositions : Prop :=
  (∀ w : Word, w.extractLsb' 12 4 = 0x1#4 → decode w = .sweep) ∧
  ∀ s : State, ∃ L : List Phase,
    exec .sweep s = .next (accepted s L) ∧ L.length = 49 ∧
    (∀ (k : Nat) (p : Position), k < 8 → L[6 * k + p.val]? = some
      { lines :=
          { mode := if k = 0 ∧ p = 0 then some .sweep else none
            sel := some (BitVec.ofNat 3 k)
            pulC := some ((pulseCode p).getLsbD 2)
            pulB := some ((pulseCode p).getLsbD 1)
            pulA := some ((pulseCode p).getLsbD 0) }
        cur := if k = 0 ∧ p = 0 then some ⟨0#3, false, 0#6⟩ else none
        hold := s.timing.sweepStep }) ∧
    L[48]? = some { lines := { pulC := some false, pulB := some false, pulA := some false }, hold := 0#16 } ∧
    (Silent s → Takes (1 + 48 * cycles s.timing.sweepStep + 1) (accepted s L)
      (idleAgain { s with mode := .sweep, sel := 7#3, pul := 0#3, cur := ⟨0#3, false, 0#6⟩ }))

/-- R136: `ADDR s` takes up one phase, latch pair and select lines at one instant; run to its end it leaves address mode
on slot `s`, `PUL` unchanged, `CUR = (0, 1, s)`. -/
def Obligations.AddrAddressesItsSlot : Prop :=
  (∀ w : Word, w.extractLsb' 12 4 = 0x2#4 → decode w = .addr (w.extractLsb' 6 3)) ∧
  ∀ (slot : Slot) (s : State), ∃ L : List Phase,
    exec (.addr slot) s = .next (accepted s L) ∧
    L = [{ lines := { mode := some .address, sel := some slot }, cur := some ⟨slot, true, 0#6⟩,
           hold := s.timing.addrSetup }] ∧
    (Silent s → Takes (1 + cycles s.timing.addrSetup) (accepted s L)
      (idleAgain { s with mode := .address, sel := slot, cur := ⟨slot, true, 0#6⟩ }))

/-- R141, R145: `PLAY` with `LEN = 6` takes up the address entry and, for each active dot in ascending order, lines C, B, A
one at a time and then all three low; run to its end it leaves address mode on slot `s`, the pulse lines idle
wherever a dot was pulsed, and `CUR = (pat, 1, s)`. With another `LEN` there is no phase; and in sweep mode a pulse code
is on the lines only during a `SWEEP`. -/
def Obligations.PlayPulsesItsActiveDots : Prop :=
  (∀ w : Word, w.extractLsb' 12 4 = 0x3#4 →
    decode w = .play (w.extractLsb' 9 3) (w.extractLsb' 6 3) (w.extractLsb' 0 6)) ∧
  ∀ (slot : Slot) (pat : Pattern) (s : State), ∃ L : List Phase,
    exec (.play 6#3 slot pat) s = .next (accepted s L) ∧
    (∀ len : BitVec 3, len ≠ 6#3 → exec (.play len slot pat) s = .next (accepted s [])) ∧
    (s.Inv → s.mode = .sweep → s.pul ≠ 0#3 → s.busy = true ∧ decode s.cmd = .sweep) ∧
    L = { lines := { mode := some .address, sel := some slot }, cur := some ⟨slot, true, pat⟩,
          hold := s.timing.addrSetup } ::
        (activeDots pat).flatMap (fun p =>
          [ { lines := { pulC := some ((pulseCode p).getLsbD 2) }, hold := s.timing.pulseHold },
            { lines := { pulB := some ((pulseCode p).getLsbD 1) }, hold := s.timing.pulseHold },
            { lines := { pulA := some ((pulseCode p).getLsbD 0) }, hold := s.timing.pulseHold },
            { lines := { pulC := some false, pulB := some false, pulA := some false },
              hold := s.timing.pulseGap } ]) ∧
    (Silent s → Takes
      (1 + cycles s.timing.addrSetup
        + (activeDots pat).length * (3 * cycles s.timing.pulseHold + cycles s.timing.pulseGap)) (accepted s L)
      (idleAgain { s with mode := .address, sel := slot, pul := if pat = 0#6 then s.pul else 0#3,
                          cur := ⟨slot, true, pat⟩ }))

/-- R142: a `PLAY` with `LEN ≠ 6` takes up no phase and completes at the next edge; no line, no `CUR`, no flag; its word is
read back from `CMD`. -/
def Obligations.MalformedPlayIsSilent : Prop :=
  (∀ (w : Word) (s : State), w.extractLsb' 12 4 = 0x3#4 → w.extractLsb' 9 3 ≠ 6#3 →
    s.accept w = .next (accepted { s with cmd := w } []) ∧
    State.readReg 0x0#4 (accepted { s with cmd := w } []) = w) ∧
  ∀ (len : BitVec 3) (slot : Slot) (pat : Pattern) (s : State), len ≠ 6#3 →
    exec (.play len slot pat) s = .next (accepted s []) ∧ (Silent s → Takes 1 (accepted s []) (idleAgain s))

/-- R150: the two WAIT commands take up one pure hold, `T_PREFIX_SETTLE` or `T_CHAR_HOLD`; `BUSY` is 1 for it; run to its
end they have written no line, no `CUR` and no flag. -/
def Obligations.WaitHoldsTheLines : Prop :=
  (∀ w : Word, w.extractLsb' 12 4 = 0x4#4 →
    (w.extractLsb' 0 2 = 0#2 → decode w = .waitSettle) ∧ (w.extractLsb' 0 2 = 1#2 → decode w = .waitChar)) ∧
  ∀ (s : State) (i : Instr) (d : Word),
    (i = .waitSettle ∧ d = s.timing.prefixSettle ∨ i = .waitChar ∧ d = s.timing.charHold) →
    exec i s = .next (accepted s [{ lines := {}, hold := d }]) ∧
    (Silent s →
      (∀ j : Nat, j ≤ cycles d → ∃ t, Takes j (accepted s [{ lines := {}, hold := d }]) t ∧ t.busy = true) ∧
      Takes (1 + cycles d) (accepted s [{ lines := {}, hold := d }]) (idleAgain s))

/-- R155: a word of a reserved row, and no other, decodes to a reserved command; accepted, it writes `CMD`, raises
ErrIllegal, takes up no phase and completes at the next edge with no line and no `CUR` written. -/
def Obligations.ReservedWordRaisesErrIllegal : Prop :=
  (∀ w : Word, isReserved (decode w) = true ↔
    (0x5#4 ≤ w.extractLsb' 12 4 ∨ w.extractLsb' 12 4 = 0x4#4 ∧ 2#2 ≤ w.extractLsb' 0 2)) ∧
  (∀ (w : Word) (s : State), isReserved (decode w) = true →
    s.accept w = .next { accepted { s with cmd := w } [] with errIllegal := true }) ∧
  ∀ (w : Word) (s : State),
    exec (.illegalWait w) s = .next { accepted s [] with errIllegal := true } ∧
    exec (.illegalOp5 w) s = .next { accepted s [] with errIllegal := true } ∧
    exec (.illegalOp67 w) s = .next { accepted s [] with errIllegal := true } ∧
    exec (.illegalOp8F w) s = .next { accepted s [] with errIllegal := true } ∧
    (Silent s → Takes 1 { accepted s [] with errIllegal := true } (idleAgain { s with errIllegal := true }))

/-- The frame of `exec`, which is acceptance without its `CMD` write (log 2: the accepting access writes `CMD` before
`exec`, R121): for every command, `BUSY`, the sequencer and, for a reserved command, `ERR_ILLEGAL` aside, nothing is
written, and every offset but that of `STATUS` reads as before (R121, R124, R206). -/
def Obligations.AcceptanceFrame : Prop :=
  ∀ (i : Instr) (s t : State), exec i s = .next t →
    t.mode = s.mode ∧ t.sel = s.sel ∧ t.pul = s.pul ∧ t.cmd = s.cmd ∧ t.cur = s.cur ∧ t.timing = s.timing ∧
    t.errBusy = s.errBusy ∧ t.errIllegal = (s.errIllegal || isReserved i) ∧ t.busRdata = s.busRdata ∧ t.host = s.host ∧
    ∀ n : Offset, n ≠ 0x1#4 → t.readReg n = s.readReg n

/-! ## Running a command -/

/-- R122: under a silent host every command, accepted in any state, performs its phases in list order with no gap and is
then idle; `CMD`, the timing registers, `ERR_BUSY` and the host are what they were at acceptance. -/
def Obligations.CommandRunsToCompletion : Prop :=
  ∀ (i : Instr) (s : State), Silent s → ∃ u : State, exec i s = .next u ∧
    Takes (1 + ((phasesOf i s.timing).map fun p => cycles p.hold).sum) u
      (idleAgain { s.applyPhases (phasesOf i s.timing) with errIllegal := s.errIllegal || isReserved i })

/-- R241: phase `k` is on the lines from edge `e_k` on for `n_k` cycles, `HOLD_CNT` counting them down; `BUSY = 1` for
`1 + H * CLK_PER_MS + Z` cycles from the accepting edge, and no longer. -/
def Obligations.CycleMapping : Prop :=
  ∀ (i : Instr) (s u : State), Silent s → exec i s = .next u →
    (∀ (k : Nat) (p : Phase) (j : Nat), (phasesOf i s.timing)[k]? = some p → j < cycles p.hold →
      ∃ t : State, Takes (1 + (((phasesOf i s.timing).take k).map fun q => cycles q.hold).sum + j) u t ∧
        t.busy = true ∧ t.seqIndex = k ∧ t.holdCnt = cycles p.hold - j ∧
        t.mode = (s.applyPhases ((phasesOf i s.timing).take (k + 1))).mode ∧
        t.sel = (s.applyPhases ((phasesOf i s.timing).take (k + 1))).sel ∧
        t.pul = (s.applyPhases ((phasesOf i s.timing).take (k + 1))).pul ∧
        t.cur = (s.applyPhases ((phasesOf i s.timing).take (k + 1))).cur) ∧
    ∀ total : Nat,
      total = 1 + ((phasesOf i s.timing).map fun p => p.hold.toNat).sum * clk
        + ((phasesOf i s.timing).filter fun p => p.hold == 0#16).length →
      (∀ j : Nat, j < total → ∃ t : State, Takes j u t ∧ t.busy = true) ∧
      ∃ t : State, Takes total u t ∧ t.busy = false

/-- R132: in the millisecond trace of `SWEEP`, step `6k+p` begins `(6k+p) * T_SWEEP_STEP` ms after the first `Apply` with
`LINES = 0x02 OR (k << 2) OR (pulseCode(p) << 5)`, and the sweep takes `48 * T_SWEEP_STEP` ms. -/
def Obligations.SweepTraceLevels : Prop :=
  ∀ s : State,
    (∀ (k : Nat) (p : Position), k < 8 → (commandTrace s .sweep)[6 * k + p.val]? = some
      ⟨(6 * k + p.val) * s.timing.sweepStep.toNat,
       0x02#16 ||| (BitVec.ofNat 16 k <<< 2) ||| ((pulseCode p).setWidth 16 <<< 5),
       s.timing.sweepStep.toNat⟩) ∧
    (commandTrace s .sweep)[48]? = some ⟨48 * s.timing.sweepStep.toNat, 0x1E#16, 0⟩ ∧
    duration (phasesOf .sweep s.timing) = 48 * s.timing.sweepStep.toNat

/-- R146: the levels of the pulse lines during the four phases of each dot, from idle pulse lines. -/
def Obligations.DotPulseLevels : Prop :=
  ∀ s : State, s.pul = 0#3 →
    ([(0 : Position), 1, 2, 3, 4, 5].map fun p =>
      [1, 2, 3, 4].map fun k => (s.applyPhases ((dotPhases s.timing p).take k)).pul) =
    [ [0b000#3, 0b000#3, 0b001#3, 0b000#3],
      [0b000#3, 0b010#3, 0b010#3, 0b000#3],
      [0b000#3, 0b010#3, 0b011#3, 0b000#3],
      [0b100#3, 0b100#3, 0b100#3, 0b000#3],
      [0b100#3, 0b100#3, 0b101#3, 0b000#3],
      [0b100#3, 0b110#3, 0b110#3, 0b000#3] ]

/-- R143: the time of a well-formed `PLAY`, at any timing and at the default one; and its number of phases. -/
def Obligations.PlayDuration : Prop :=
  ∀ (slot : Slot) (pat : Pattern),
    (∀ T : Timing,
      duration (phasesOf (.play 6#3 slot pat) T) =
        T.addrSetup.toNat + (activeDots pat).length * (3 * T.pulseHold.toNat + T.pulseGap.toNat) ∧
      (phasesOf (.play 6#3 slot pat) T).length = 1 + 4 * (activeDots pat).length) ∧
    duration (phasesOf (.play 6#3 slot pat) State.reset.timing) = 16 * (activeDots pat).length ∧
    (activeDots pat).length ≤ 6

/-- R90, R144: `PLAY s, 0` has the one phase of `ADDR s`, hence its end state; the words differ, and a read of `CMD` tells
them apart. -/
def Obligations.EmptyPlayIsAddr : Prop :=
  ∀ (slot : Slot) (s : State),
    exec (.play 6#3 slot 0#6) s = exec (.addr slot) s ∧
    phasesOf (.play 6#3 slot 0#6) s.timing = phasesOf (.addr slot) s.timing ∧
    phasesOf (.addr slot) s.timing =
      [{ lines := { mode := some .address, sel := some slot }, cur := some ⟨slot, true, 0#6⟩,
         hold := s.timing.addrSetup }] ∧
    encode (.play 6#3 slot 0#6) = (0x3C00#16 ||| (slot.setWidth 16 <<< 6)) ∧
    encode (.addr slot) = (0x2000#16 ||| (slot.setWidth 16 <<< 6)) ∧
    ∀ t u : State, s.accept (encode (.play 6#3 slot 0#6)) = .next t → s.accept (encode (.addr slot)) = .next u →
      t.readReg 0x0#4 ≠ u.readReg 0x0#4

/-! ## Registers and accesses -/

/-- R26: what a read of `STATUS` returns, bit by bit; and what a write of `v` does at any edge, busy or not: it clears the
flags whose bit is 1 and nothing else, beside the sequencer's own event. -/
def Obligations.StatusReadsAndClears : Prop :=
  (∀ s : State,
    (s.readReg 0x1#4).getLsbD 0 = s.busy ∧ (s.readReg 0x1#4).getLsbD 1 = (s.mode == .address) ∧
    (s.readReg 0x1#4).getLsbD 2 = s.errBusy ∧ (s.readReg 0x1#4).getLsbD 3 = s.errIllegal ∧
    ∀ j : Nat, 4 ≤ j → (s.readReg 0x1#4).getLsbD j = false) ∧
  State.reset.readReg 0x1#4 = 0x0000#16 ∧
  ∀ (s : State) (h : HostAgent) (v : Word), s.Due (.access (.write 0x1#4 v)) h →
    step s = .next { edged s h with errBusy := s.errBusy && !v.getLsbD 2
                                    errIllegal := s.errIllegal && !v.getLsbD 3 }

/-- R27: what a read of `LINES` returns, bit by bit, and its reset value; a write is ignored, busy or not. -/
def Obligations.LinesReadsTheLevels : Prop :=
  (∀ s : State,
    (s.readReg 0x2#4).getLsbD 0 = (s.mode == .address) ∧ (s.readReg 0x2#4).getLsbD 1 = !(s.mode == .address) ∧
    (s.readReg 0x2#4).getLsbD 2 = s.sel.getLsbD 0 ∧ (s.readReg 0x2#4).getLsbD 3 = s.sel.getLsbD 1 ∧
    (s.readReg 0x2#4).getLsbD 4 = s.sel.getLsbD 2 ∧ (s.readReg 0x2#4).getLsbD 5 = s.pul.getLsbD 0 ∧
    (s.readReg 0x2#4).getLsbD 6 = s.pul.getLsbD 1 ∧ (s.readReg 0x2#4).getLsbD 7 = s.pul.getLsbD 2 ∧
    ∀ j : Nat, 8 ≤ j → (s.readReg 0x2#4).getLsbD j = false) ∧
  State.reset.readReg 0x2#4 = 0x0002#16 ∧
  ∀ (s : State) (h : HostAgent) (v : Word), s.Due (.access (.write 0x2#4 v)) h → step s = .next (edged s h)

/-- R105: the value of `LINES` as a number, in general, in address mode with idle pulse lines, and at a sweep step. -/
def Obligations.LinesValueInEachMode : Prop :=
  ∀ s : State,
    s.readReg 0x2#4 = (s.pul.setWidth 16 <<< 5) ||| (s.sel.setWidth 16 <<< 2) |||
      (if s.mode = .address then 0x01#16 else 0x02#16) ∧
    (∀ slot : Slot, s.mode = .address → s.sel = selCode slot → s.pul = 0#3 →
      s.readReg 0x2#4 = 0x01#16 ||| (slot.setWidth 16 <<< 2)) ∧
    ∀ (slot : Slot) (p : Position), s.mode = .sweep → s.sel = selCode slot → s.pul = pulseCode p →
      s.readReg 0x2#4 = 0x02#16 ||| (slot.setWidth 16 <<< 2) ||| ((pulseCode p).setWidth 16 <<< 5)

/-- The layout of `CUR`, its reset value, and that a write to it is ignored (R28; which commands write it is in their own
statements). -/
def Obligations.CurReadsItsFields : Prop :=
  (∀ s : State,
    (s.readReg 0x3#4).extractLsb' 0 3 = s.cur.slot ∧ (s.readReg 0x3#4).getLsbD 3 = s.cur.valid ∧
    (s.readReg 0x3#4).extractLsb' 4 4 = 0#4 ∧ (s.readReg 0x3#4).extractLsb' 8 6 = s.cur.pattern ∧
    (s.readReg 0x3#4).extractLsb' 14 2 = 0#2) ∧
  State.reset.readReg 0x3#4 = 0x0000#16 ∧
  ∀ (s : State) (h : HostAgent) (v : Word), s.Due (.access (.write 0x3#4 v)) h → step s = .next (edged s h)

/-- R30: the reserved offsets read as zero; a write to one is ignored and raises no error, busy or not. -/
def Obligations.ReservedOffsetsAreInert : Prop :=
  ∀ (n : Offset), 0xA#4 ≤ n →
    (∀ s : State, s.readReg n = 0x0000#16) ∧
    ∀ (s : State) (h : HostAgent) (v : Word), s.Due (.access (.write n v)) h → step s = .next (edged s h)

/-- R29: the timing registers' reset values; a write while idle stores all 16 bits in its own register, which then reads
back; a write while a command runs on is dropped and raises ErrBusy. -/
def Obligations.TimingRegistersStoreWhileIdle : Prop :=
  State.reset.timing = ⟨1#16, 5#16, 1#16, 200#16, 1500#16, 0#16⟩ ∧
  (∀ (s : State) (h : HostAgent) (n : Offset) (v : Word), s.busy = false → 0x4#4 ≤ n → n ≤ 0x9#4 →
    s.Due (.access (.write n v)) h →
    ∃ T : Timing, step s = .next { s with timing := T, busRdata := none, host := h } ∧
      State.readReg n { s with timing := T } = v ∧
      (∀ m : Offset, m ≠ n → State.readReg m { s with timing := T } = s.readReg m)) ∧
  (∀ T : Timing, ∀ s : State, s.timing = T →
    s.readReg 0x4#4 = T.sweepStep ∧ s.readReg 0x5#4 = T.pulseHold ∧ s.readReg 0x6#4 = T.pulseGap ∧
    s.readReg 0x7#4 = T.prefixSettle ∧ s.readReg 0x8#4 = T.charHold ∧ s.readReg 0x9#4 = T.addrSetup) ∧
  ∀ (s : State) (h : HostAgent) (n : Offset) (v : Word), (s.sequencerEdge clk).busy = true → 0x4#4 ≤ n → n ≤ 0x9#4 →
    s.Due (.access (.write n v)) h → step s = .next { edged s h with errBusy := true }

/-- R202: a write to `CMD` or a timing register while a command runs on is dropped, the command goes on as it would have,
and `ERR_BUSY` is set; a write to any other offset never sets it. -/
def Obligations.BusyGuardDropsWrites : Prop :=
  (∀ (s : State) (h : HostAgent) (n : Offset) (v : Word), (s.sequencerEdge clk).busy = true →
    (n = 0x0#4 ∨ 0x4#4 ≤ n ∧ n ≤ 0x9#4) → s.Due (.access (.write n v)) h →
    step s = .next { edged s h with errBusy := true }) ∧
  ∀ (s t : State) (h : HostAgent) (n : Offset) (v : Word), ¬(n = 0x0#4 ∨ 0x4#4 ≤ n ∧ n ≤ 0x9#4) →
    s.Due (.access (.write n v)) h → step s = .next t → t.errBusy = true → s.errBusy = true

/-- THE MODEL'S CHOICE (log 6): at the very edge where a command completes the spec does not say whether a write of `CMD`
or of a timing register still finds `BUSY = 1`; it is dropped with ErrBusy, or accepted by the block, now idle (`CMD`),
or stored in its own register (a timing register), and nothing else. -/
def Obligations.WriteAtCompletingEdgeIsDroppedOrAccepted : Prop :=
  ∀ (s : State) (h : HostAgent), s.busy = true → (s.sequencerEdge clk).busy = false →
    (∀ w : Word, s.Due (.access (.write 0x0#4 w)) h →
      step s = .next { edged s h with errBusy := true } ∨ step s = exec (decode w) { edged s h with cmd := w }) ∧
    ∀ (n : Offset) (v : Word), 0x4#4 ≤ n → n ≤ 0x9#4 → s.Due (.access (.write n v)) h →
      step s = .next { edged s h with errBusy := true } ∨
      ∃ T : Timing, step s = .next { edged s h with timing := T } ∧
        State.readReg n { edged s h with timing := T } = v ∧
        ∀ m : Offset, m ≠ n → State.readReg m { edged s h with timing := T } = State.readReg m (edged s h)

/-- Reads have no side effect, at any offset and any edge: beside the sequencer's own event nothing changes, and the pins
carry the register's value after the edge (R66, R233). -/
def Obligations.ReadsHaveNoSideEffect : Prop :=
  ∀ (s : State) (h : HostAgent) (n : Offset), s.Due (.access (.read n)) h →
    step s = .next { edged s h with busRdata := some ((s.sequencerEdge clk).readReg n) }

/-- A step runs the decoded command: while idle, the step that takes the host's write of `w` to `CMD` is `exec` of the
decoded word, with `CMD <- w`, the write taken off the script and no read on the pins; and a read of `CMD` returns the
last accepted word, 0x0000 after reset (R25, R121). -/
def Obligations.StepRunsTheDecodedCommand : Prop :=
  (∀ (s : State) (h : HostAgent) (w : Word), s.busy = false → s.Due (.access (.write 0x0#4 w)) h →
    step s = exec (decode w) { s with cmd := w, busRdata := none, host := h } ∧
    ∃ t : State, step s = .next t ∧ t.readReg 0x0#4 = w) ∧
  (∀ s : State, s.readReg 0x0#4 = s.cmd) ∧ State.reset.readReg 0x0#4 = 0x0000#16 ∧
  ∀ (s t : State) (w : Word), s.accept w = .next t → t.readReg 0x0#4 = w

/-- The model's way to put a command where the next step takes it (log 10): from any state, the sequencer made idle. -/
def Obligations.FetchWordRunsAtTheNextStep : Prop :=
  ∀ (s : State) (w : Word),
    step (s.withFetchWord 16 w.toNat) =
      exec (decode w) { s with cmd := w, busy := false, seqPhases := [], seqIndex := 0, holdCnt := 0, busRdata := none }

/-- R61, R62, R64: offset `n` is at `BAM_BASE + 2n`, a multiple of 32 away from 0, and an access there is the access of
the pins; another width (U1), an odd address (U2), and an address outside the 32 bytes (U3) are refused. THE MODEL'S CHOICE
(log 14): of an access that is wrong in several ways, the width is named first, then the alignment, then the range. -/
def Obligations.BusAccessesReachTheirOffsets : Prop :=
  Config.platform.bamBase % 32 = 0 ∧
  (∀ (s : State) (h : HostAgent) (n : Offset), s.Due (.memRead (Config.platform.bamBase + 2 * n.toNat) 2) h →
    step s = .next { edged s h with busRdata := some ((s.sequencerEdge clk).readReg n) }) ∧
  (∀ (s : State) (h : HostAgent) (n : Offset) (v : Word),
    s.Due (.memWrite (Config.platform.bamBase + 2 * n.toNat) 2 v) h →
    step s = step { s with host := { s.host with script := .access (.write n v) :: h.script } }) ∧
  ∀ (s : State) (h : HostAgent) (addr width : Nat) (v : Word),
    (s.Due (.memRead addr width) h ∨ s.Due (.memWrite addr width v) h) →
    (width ≠ 2 → step s = .refused .accessWidth) ∧
    (width = 2 → addr % 2 = 1 → step s = .refused .misaligned) ∧
    (width = 2 → addr % 2 = 0 → (addr < Config.platform.bamBase ∨ Config.platform.bamBase + 32 ≤ addr) →
      step s = .refused .outsideBlock)

/-! ## Reset -/

/-- R230: an edge with `rst = 1`, from any state and whatever access is in that cycle, gives every piece of block state its
reset value; and power-on gives the same. (The host, no part of the block, goes on: log 18. The read-data pin: log 8.) -/
def Obligations.ResetWins : Prop :=
  (∀ (s : State) (h : HostAgent) (a : Option Access), s.Due (.reset a) h →
    step s = .next
      { mode := .sweep, sel := 0#3, pul := 0#3, cmd := 0x0000#16, busy := false, errBusy := false, errIllegal := false,
        cur := ⟨0#3, false, 0#6⟩, timing := ⟨1#16, 5#16, 1#16, 200#16, 1500#16, 0#16⟩,
        seqPhases := [], seqIndex := 0, holdCnt := 0, busRdata := none, host := h }) ∧
  State.reset =
    { mode := .sweep, sel := 0#3, pul := 0#3, cmd := 0x0000#16, busy := false, errBusy := false, errIllegal := false,
      cur := ⟨0#3, false, 0#6⟩, timing := ⟨1#16, 5#16, 1#16, 200#16, 1500#16, 0#16⟩,
      seqPhases := [], seqIndex := 0, holdCnt := 0, busRdata := none, host := State.reset.host }

/-- R33: what reset leaves in every piece of block state. -/
def Obligations.ResetValues : Prop :=
  State.reset.mode = .sweep ∧ State.reset.sel = 0b000#3 ∧ State.reset.pul = 0b000#3 ∧
  State.reset.readReg 0x0#4 = 0x0000#16 ∧ State.reset.readReg 0x1#4 = 0x0000#16 ∧
  State.reset.readReg 0x2#4 = 0x0002#16 ∧ State.reset.readReg 0x3#4 = 0x0000#16 ∧
  State.reset.readReg 0x4#4 = 1#16 ∧ State.reset.readReg 0x5#4 = 5#16 ∧ State.reset.readReg 0x6#4 = 1#16 ∧
  State.reset.readReg 0x7#4 = 200#16 ∧ State.reset.readReg 0x8#4 = 1500#16 ∧ State.reset.readReg 0x9#4 = 0#16 ∧
  State.reset.busy = false ∧ State.reset.errBusy = false ∧ State.reset.errIllegal = false ∧
  State.reset.cur = ⟨0#3, false, 0#6⟩ ∧
  State.reset.seqPhases = [] ∧ State.reset.seqIndex = 0 ∧ State.reset.holdCnt = 0

/-! ## The whole machine -/

/-- The machine's invariant (R34, R35, R73, R122) holds after reset. -/
def Obligations.InvHoldsAtReset : Prop := State.reset.Inv

/-- Every step, whatever the host does at it, keeps the machine's invariant (R34, R35, R73, R122). -/
def Obligations.StepKeepsInv : Prop := ∀ s t : State, s.Inv → step s = .next t → t.Inv

/-- R34: while `BUSY = 0` the pulse lines are idle, in every state that any number of steps reaches from one with the
machine's invariant, reset among them; `SWEEP` and a well-formed `PLAY` leave them idle, and every other command leaves
them as they are. -/
def Obligations.PulseLinesAreIdleWhileIdle : Prop :=
  State.reset.Inv ∧ State.reset.pul = 0b000#3 ∧
  (∀ (n : Nat) (s t : State), s.Inv → Takes n s t → t.busy = false → t.pul = 0b000#3) ∧
  (∀ s : State, (s.applyPhases (phasesOf .sweep s.timing)).pul = 0b000#3) ∧
  (∀ (s : State) (p : Position), (s.applyPhases (dotPhases s.timing p)).pul = 0b000#3) ∧
  (∀ (i : Instr) (s : State), s.pul = 0b000#3 → (s.applyPhases (phasesOf i s.timing)).pul = 0b000#3) ∧
  ∀ (i : Instr) (s : State), i ≠ .sweep → (∀ slot pat, i ≠ .play 6#3 slot pat) →
    (s.applyPhases (phasesOf i s.timing)).pul = s.pul

/-- R35: `STATUS.MODE` copies `MODE` and the two latch bits of `LINES` are complementary in every state; and in every state
that any number of steps reaches from one with the machine's invariant, a valid `CUR` names the addressed slot. -/
def Obligations.ValidCurNamesTheAddressedSlot : Prop :=
  (∀ s : State, (s.readReg 0x1#4).getLsbD 1 = (s.mode == .address) ∧
    (s.readReg 0x2#4).getLsbD 1 = !(s.readReg 0x2#4).getLsbD 0) ∧
  ∀ (n : Nat) (s t : State), s.Inv → Takes n s t → t.cur.valid = true → t.mode = .address ∧ t.sel = t.cur.slot

/-- R249: but for reset, `MODE` changes only at the first `Apply` of SWEEP, ADDR or PLAY; entering address mode the pulse
lines are idle before and after; entering sweep mode they are idle before and the first sweep code appears at that
instant; in address mode the select lines change only at the first `Apply` of ADDR or PLAY, with idle pulse lines; and in
address mode a pulse code is on the bus only during the dot phases of a `PLAY`. -/
def Obligations.NoPulseCodeAtAModeChange : Prop :=
  (∀ (s t : State) (turn : Turn), s.Inv → step s = .next t → s.host.turn Config.platform = .ok turn →
    turn.pins.rst = false →
    (t.mode ≠ s.mode → s.busy = true ∧ s.holdCnt = 0 ∧ (decode s.cmd = .sweep ∨ (∃ slot, decode s.cmd = .addr slot) ∨
      ∃ slot pat, decode s.cmd = .play 6#3 slot pat)) ∧
    (s.mode = .sweep → t.mode = .address → s.pul = 0b000#3 ∧ t.pul = 0b000#3) ∧
    (s.mode = .address → t.mode = .sweep → s.pul = 0b000#3 ∧ t.pul = pulseCode 0) ∧
    (s.mode = .address → t.mode = .address → t.sel ≠ s.sel → s.pul = 0b000#3 ∧ t.pul = 0b000#3 ∧ s.busy = true ∧
      s.holdCnt = 0 ∧ ((∃ slot, decode s.cmd = .addr slot) ∨ ∃ slot pat, decode s.cmd = .play 6#3 slot pat))) ∧
  ∀ s : State, s.Inv → s.mode = .address → s.pul ≠ 0b000#3 →
    s.busy = true ∧ 1 ≤ s.seqIndex ∧ ∃ slot pat, decode s.cmd = .play 6#3 slot pat

/-- R22: in every state exactly one latch line is high. -/
def Obligations.LatchLinesAreComplementary : Prop :=
  ∀ s : State, s.level .latchSet = !s.level .latchReset

/-- The commands are the only writers of `MODE`, `SEL` and `PUL` besides reset (R124): a step without reset that changes a
line belongs to a `SWEEP`, an `ADDR` or a well-formed `PLAY` in progress; and one that changes `CUR` does so too. -/
def Obligations.OnlyCommandsAndResetWriteLines : Prop :=
  ∀ (s t : State) (turn : Turn), s.Inv → step s = .next t → s.host.turn Config.platform = .ok turn →
    turn.pins.rst = false → (t.mode ≠ s.mode ∨ t.sel ≠ s.sel ∨ t.pul ≠ s.pul ∨ t.cur ≠ s.cur) →
    s.busy = true ∧ (decode s.cmd = .sweep ∨ (∃ slot, decode s.cmd = .addr slot) ∨
      ∃ slot pat, decode s.cmd = .play 6#3 slot pat)

/-- R200: no error and no command stops the machine. A step stops only where a bus access or a second request is one the
spec asks a model to refuse. -/
def Obligations.NothingTheBlockDoesStopsIt : Prop :=
  (∀ s : State, (∀ op ∈ s.host.script, plainOp op = true) → ∃ t, step s = .next t) ∧
  ∀ (s : State), (∃ t, step s = .next t) ∨ ∃ r, step s = .refused r ∧
    (r = .accessWidth ∨ r = .misaligned ∨ r = .outsideBlock ∨ r = .overlappingRequest)

/-- R207: an error flag stays 1 until the host writes 1 to its bit of `STATUS` or the block is reset. -/
def Obligations.ErrorFlagsAreSticky : Prop :=
  ∀ s t : State, step s = .next t →
    (s.errBusy = true → t.errBusy = false → ∃ turn, s.host.turn Config.platform = .ok turn ∧
      (turn.pins.rst = true ∨ ∃ v : Word, turn.pins.access = some (.write 0x1#4 v) ∧ v.getLsbD 2 = true)) ∧
    (s.errIllegal = true → t.errIllegal = false → ∃ turn, s.host.turn Config.platform = .ok turn ∧
      (turn.pins.rst = true ∨ ∃ v : Word, turn.pins.access = some (.write 0x1#4 v) ∧ v.getLsbD 3 = true))

/-! ## The encoder's tables, the codec and the reference host -/

/-- R100, R102, R103, R104: the select code is the slot, the pulse code the printed table, never `000` nor `111`, and
`p + 1` as a number. -/
def Obligations.EncoderTables : Prop :=
  (∀ slot : Slot, selCode slot = slot) ∧
  [(0 : Position), 1, 2, 3, 4, 5].map pulseCode = [0b001#3, 0b010#3, 0b011#3, 0b100#3, 0b101#3, 0b110#3] ∧
  ∀ p : Position, pulseCode p ≠ 0b000#3 ∧ pulseCode p ≠ 0b111#3 ∧ (pulseCode p).toNat = p.val + 1

/-- R168: letters in either case have one pattern, and each digit has the pattern of its letter (R163). -/
def Obligations.CodecLaws : Prop :=
  ∀ cfg : Config,
    (∀ c : Byte, 0x61#8 ≤ c → c ≤ 0x7A#8 → lookup cfg (c - 0x20#8) = lookup cfg c ∧ (lookup cfg c).isSome = true) ∧
    (∀ d : Byte, 0x31#8 ≤ d → d ≤ 0x39#8 → lookup cfg d = lookup cfg (d - 0x31#8 + 0x61#8)) ∧
    lookup cfg 0x30#8 = lookup cfg 0x6A#8

/-- The 26 letter patterns are pairwise distinct (the property of R162 that the source gives; the dot sets themselves are
general knowledge, log 13). -/
def Obligations.LetterPatternsAreDistinct : Prop :=
  ∀ (cfg : Config) (c d : Byte), 0x61#8 ≤ c → c ≤ 0x7A#8 → 0x61#8 ≤ d → d ≤ 0x7A#8 →
    lookup cfg c = lookup cfg d → c = d

/-- R167: "not found" is exactly every code that, folded, is no letter, digit, punctuation character or space; and the two
equalities of R165. -/
def Obligations.LookupNotFoundExactly : Prop :=
  ∀ cfg : Config,
    (∀ c : Byte, lookup cfg c = none ↔
      ¬(0x61#8 ≤ foldCase c ∧ foldCase c ≤ 0x7A#8) ∧ ¬(0x30#8 ≤ c ∧ c ≤ 0x39#8) ∧ c ≠ 0x20#8 ∧
      c ∉ [0x2E#8, 0x2C#8, 0x3B#8, 0x3A#8, 0x21#8, 0x3F#8, 0x27#8, 0x22#8, 0x2D#8, 0x28#8, 0x29#8, 0x2F#8, 0x2A#8,
           0x2B#8, 0x3D#8, 0x24#8, 0x25#8, 0x26#8, 0x40#8]) ∧
    lookup cfg 0x28#8 = lookup cfg 0x29#8 ∧ lookup cfg 0x2E#8 = lookup cfg 0x3B#8 ∧ lookup cfg 0x20#8 = some 0#6

/-- R180, R181: for a text that is not empty, the sweeps and addressed slots of `displayText`, in order, are: slot `k`
at index `k mod 8`, with a sweep before each slot whose `k` is a multiple of 8, the first included; so a request of `N`
slots issues `1 + (N-1)/8` sweeps. `N` is the characters and one slot for each run of digits. -/
def Obligations.SlotsCycleWithASweepAtEachWrap : Prop :=
  ∀ (cfg : Config) (text : List Byte), text ≠ [] → ∀ N : Nat, N = text.length + digitRuns text →
    (displayWords cfg (some text)).filterMap slotEvent =
      (List.range N).flatMap (fun k => (if k % 8 = 0 then [none] else []) ++ [some (BitVec.ofNat 3 k)]) ∧
    ((displayWords cfg (some text)).filter fun w => decode w == .sweep).length = 1 + (N - 1) / 8

/-- R182: a request has as many digit prefixes as the text has maximal runs of digits; each is one slot that plays
`PREFIX_PATTERN` followed by its settle hold; and a further character of the text brings one exactly where it is a
digit that begins a run, so none comes before a non-digit. -/
def Obligations.OnePrefixSlotPerDigitRun : Prop :=
  ∀ (cfg : Config) (text : List Byte),
    ((displayWords cfg (some text)).filter fun w => decode w == .waitSettle).length = digitRuns text ∧
    (∀ k : Nat, (displayWords cfg (some text))[k]? = some (encode .waitSettle) →
      ∃ (j : Nat) (slot : Slot), k = j + 1 ∧
        (displayWords cfg (some text))[j]? = some (encode (.play 6#3 slot cfg.prefixPattern))) ∧
    (∀ c : Byte, encode .waitSettle ∈ displayWords cfg (some [c]) ↔ isDigit c = true) ∧
    ∀ c d : Byte, ∃ ws : List Word,
      displayWords cfg (some (text ++ [c, d])) = displayWords cfg (some (text ++ [c])) ++ ws ∧
      (encode .waitSettle ∈ ws ↔ isDigit d = true ∧ isDigit c = false)

/-- R185: the duration of a request, at any timing and at the default one. -/
def Obligations.RequestDuration : Prop :=
  ∀ (cfg : Config) (text : List Byte), text ≠ [] →
    ∀ N P C D : Nat, P = digitRuns text → C = text.length → N = P + C →
      D = ((displayWords cfg (some text)).map dotsOf).sum →
      (∀ T : Timing, ((displayWords cfg (some text)).map fun w => duration (phasesOf (decode w) T)).sum =
        48 * T.sweepStep.toNat * (1 + (N - 1) / 8) + (3 * T.pulseHold.toNat + T.pulseGap.toNat) * D
          + T.prefixSettle.toNat * P + T.charHold.toNat * C + T.addrSetup.toNat * N) ∧
      ((displayWords cfg (some text)).map fun w => duration (phasesOf (decode w) State.reset.timing)).sum =
        48 * (1 + (N - 1) / 8) + 16 * D + 200 * P + 1500 * C

/-- What a request ends with: the last character's slot, played with its pattern or, unmapped, only addressed, and the
inter-character hold; the slot is the last of the request's `N` (R178, R181, R183). -/
def Obligations.UnmappedCharacterIsOnlyAddressed : Prop :=
  ∀ (cfg : Config) (text : List Byte) (c : Byte), ∃ before : List Word, ∀ N : Nat,
    N = (text ++ [c]).length + digitRuns (text ++ [c]) →
    displayWords cfg (some (text ++ [c])) = before ++
      [ match lookup cfg c with
        | some pat => encode (.play 6#3 (BitVec.ofNat 3 (N - 1)) pat)
        | none => encode (.addr (BitVec.ofNat 3 (N - 1))),
        encode .waitChar ]

/-- The display state at the end of a text: as many slots as the request has, the last character's digit test, and that
character's slot (R175, R178, R184). -/
def Obligations.DisplayStateAfterAText : Prop :=
  ∀ (text : List Byte) (c : Byte) (N : Nat), N = (text ++ [c]).length + digitRuns (text ++ [c]) →
    DisplayState.init.afterText (text ++ [c]) =
      { displayIndex := N, isPrevDigit := isDigit c, prevSlotIndex := some (BitVec.ofNat 3 (N - 1)) }

/-- R179: null and empty text are rejected: no command word, no access on the pins and no block state touched by it, one
diagnostic. -/
def Obligations.RejectedTextTouchesNothing : Prop :=
  ∀ text : Option (List Byte), (text = none ∨ text = some []) →
    (∀ cfg : Config, displayWords cfg text = []) ∧
    ∀ (s : State) (h : HostAgent), s.Due (.displayText text) h → h.script = [] →
      step s = .next (edged s { h with diagnostics := s.host.diagnostics ++ [.inputRejected] })

/-- R177: while the host waits for each command, as the reference host does, every step keeps it so, and no write is ever
dropped: `ERR_BUSY` stays as it is. -/
def Obligations.WaitingHostIsNeverDropped : Prop :=
  ∀ s t : State, s.HostWaits → step s = .next t → t.HostWaits ∧ t.errBusy = s.errBusy

/-- R178: what a host that waits still has to issue begins as `displayText`'s own words, and at every step either nothing of
it is issued or its first word is accepted by the block. -/
def Obligations.ReferenceHostIssuesItsWordsInOrder : Prop :=
  (∀ (cfg : Config) (text : Option (List Byte)), scriptWords cfg none [.displayText text] = displayWords cfg text) ∧
  ∀ s t : State, s.HostWaits → step s = .next t →
    t.wordsToIssue Config.platform = s.wordsToIssue Config.platform ∨
    ∃ w : Word, s.wordsToIssue Config.platform = w :: t.wordsToIssue Config.platform ∧
      s.busy = false ∧ t.busy = true ∧ t.cmd = w

/-- R88, R89: the words the assembler's syntax stands for, for every operand in range, and the pattern of a dot set; out of
range it rejects the line, which R88 says of `ADDR` and the model chose for the rest (log 21). -/
def Obligations.AssemblerWords : Prop :=
  (∀ (cfg : Config) (s p n : Nat) (c : Byte),
    (assemble cfg .nop = some 0x0000#16 ∧ assemble cfg .sweep = some 0x1000#16 ∧
      assemble cfg .waitSettle = some 0x4000#16 ∧ assemble cfg .waitChar = some 0x4001#16) ∧
    (s ≤ 7 → assemble cfg (.addr s) = some (0x2000#16 ||| (BitVec.ofNat 16 s <<< 6))) ∧
    (s ≤ 7 → p ≤ 63 → assemble cfg (.play s p 6) = some (0x3C00#16 ||| (BitVec.ofNat 16 s <<< 6) ||| BitVec.ofNat 16 p)) ∧
    (s ≤ 7 → p ≤ 63 → n ≤ 7 → assemble cfg (.play s p n) =
      some (0x3000#16 ||| (BitVec.ofNat 16 n <<< 9) ||| (BitVec.ofNat 16 s <<< 6) ||| BitVec.ofNat 16 p)) ∧
    (∀ w : Word, assemble cfg (.word w.toNat) = some w) ∧
    (s ≤ 7 → assemble cfg (.blank s) = some (0x3C00#16 ||| (BitVec.ofNat 16 s <<< 6))) ∧
    (s ≤ 7 → assemble cfg (.digitMark s) =
      some (0x3C00#16 ||| (BitVec.ofNat 16 s <<< 6) ||| cfg.prefixPattern.setWidth 16)) ∧
    (s ≤ 7 → assemble cfg (.char s c) =
      match lookup cfg c with
      | some pat => some (0x3C00#16 ||| (BitVec.ofNat 16 s <<< 6) ||| pat.setWidth 16)
      | none => some (0x2000#16 ||| (BitVec.ofNat 16 s <<< 6))) ∧
    (7 < s → assemble cfg (.addr s) = none ∧ assemble cfg (.play s p n) = none ∧ assemble cfg (.blank s) = none ∧
      assemble cfg (.digitMark s) = none ∧ assemble cfg (.char s c) = none) ∧
    (63 < p → assemble cfg (.play s p n) = none) ∧ (7 < n → assemble cfg (.play s p n) = none) ∧
    (65535 < n → assemble cfg (.word n) = none)) ∧
  dotSet [] = some 0#6 ∧
  (∀ ds : List Nat, (∀ d ∈ ds, 1 ≤ d ∧ d ≤ 6) → ∃ pat : Pattern, dotSet ds = some pat ∧
    ∀ p : Position, (pat.getLsbD p.val = true ↔ p.val + 1 ∈ ds)) ∧
  ∀ ds : List Nat, (∃ d ∈ ds, d < 1 ∨ 6 < d) → dotSet ds = none

/-- The levels of the eight output lines are the bits of their registers, so a line changes only when its register does
(R21); and the `busy` pin is `STATUS.BUSY` (R71, R233). -/
def Obligations.OutputPinsFollowTheRegisters : Prop :=
  (∀ s : State,
    s.level .latchSet = (s.mode == .address) ∧ s.level .latchReset = !(s.mode == .address) ∧
    s.level .selA = s.sel.getLsbD 0 ∧ s.level .selB = s.sel.getLsbD 1 ∧ s.level .selC = s.sel.getLsbD 2 ∧
    s.level .pulA = s.pul.getLsbD 0 ∧ s.level .pulB = s.pul.getLsbD 1 ∧ s.level .pulC = s.pul.getLsbD 2 ∧
    s.busyPin = (s.readReg 0x1#4).getLsbD 0) ∧
  ∀ (s t : State) (l : Line), t.level l ≠ s.level l → t.mode ≠ s.mode ∨ t.sel ≠ s.sel ∨ t.pul ≠ s.pul

/-- The diagnostics a host has given and those its script still has to give are together the same before and after every
step, so every unmapped character of a request is reported, in order, once, and nothing else is; and diagnostics write
no block register: a step is the same whatever was given before it (R178, R183, R191). -/
def Obligations.EveryUnmappedCharacterIsReported : Prop :=
  (∀ (cfg : Config) (text : List Byte), text ≠ [] →
    scriptDiagnostics cfg [.displayText (some text)] =
      (text.filter fun c => lookup cfg c == none).map Diagnostic.unmapped) ∧
  (∀ s t : State, step s = .next t →
    t.host.diagnostics ++ scriptDiagnostics Config.platform t.host.script =
      s.host.diagnostics ++ scriptDiagnostics Config.platform s.host.script) ∧
  ∀ (s t : State) (ds : List Diagnostic), step s = .next t →
    step (s.withDiagnostics ds) = .next (t.withDiagnostics ds)

/-- A display request that would begin while one is in flight is refused by name (R190, U4; log 14); one that would begin
while none is in flight begins, with a new display state (R175). -/
def Obligations.OverlappingRequestIsRefused : Prop :=
  ∀ (s : State) (h : HostAgent) (text : List Byte), text ≠ [] → s.Due (.displayText (some text)) h →
    (s.host.request ≠ none → step s = .refused .overlappingRequest) ∧
    (s.host.request = none → ∃ t : State, step s = .next t ∧ t.host.request = some ⟨0, false, none⟩)
end

