-- ==== Sys2Proof/Laws/State.lean ====
section
/-!
SUPPORT. One lemma per field of State for each of the machine's updates, so that no later proof unfolds a record update.
-/

namespace Sys2Proof.Machine

variable (s : State) (w : Word) (u : LineSet) (p : Phase) (ps : List Phase)
  (T : Timing) (k n : Nat) (r : Option Word) (h : HostAgent)

/-! ### Setting `CMD` -/

@[simp] theorem setCmd_mode : (s.setCmd w).mode = s.mode := rfl
@[simp] theorem setCmd_sel : (s.setCmd w).sel = s.sel := rfl
@[simp] theorem setCmd_pul : (s.setCmd w).pul = s.pul := rfl
@[simp] theorem setCmd_cmd : (s.setCmd w).cmd = w := rfl
@[simp] theorem setCmd_busy : (s.setCmd w).busy = s.busy := rfl
@[simp] theorem setCmd_errBusy : (s.setCmd w).errBusy = s.errBusy := rfl
@[simp] theorem setCmd_errIllegal : (s.setCmd w).errIllegal = s.errIllegal := rfl
@[simp] theorem setCmd_cur : (s.setCmd w).cur = s.cur := rfl
@[simp] theorem setCmd_timing : (s.setCmd w).timing = s.timing := rfl
@[simp] theorem setCmd_seqPhases : (s.setCmd w).seqPhases = s.seqPhases := rfl
@[simp] theorem setCmd_seqIndex : (s.setCmd w).seqIndex = s.seqIndex := rfl
@[simp] theorem setCmd_holdCnt : (s.setCmd w).holdCnt = s.holdCnt := rfl
@[simp] theorem setCmd_busRdata : (s.setCmd w).busRdata = s.busRdata := rfl
@[simp] theorem setCmd_host : (s.setCmd w).host = s.host := rfl

/-! ### Setting the timing registers -/

@[simp] theorem setTiming_mode : (s.setTiming T).mode = s.mode := rfl
@[simp] theorem setTiming_sel : (s.setTiming T).sel = s.sel := rfl
@[simp] theorem setTiming_pul : (s.setTiming T).pul = s.pul := rfl
@[simp] theorem setTiming_cmd : (s.setTiming T).cmd = s.cmd := rfl
@[simp] theorem setTiming_busy : (s.setTiming T).busy = s.busy := rfl
@[simp] theorem setTiming_errBusy : (s.setTiming T).errBusy = s.errBusy := rfl
@[simp] theorem setTiming_errIllegal : (s.setTiming T).errIllegal = s.errIllegal := rfl
@[simp] theorem setTiming_cur : (s.setTiming T).cur = s.cur := rfl
@[simp] theorem setTiming_timing : (s.setTiming T).timing = T := rfl
@[simp] theorem setTiming_seqPhases : (s.setTiming T).seqPhases = s.seqPhases := rfl
@[simp] theorem setTiming_seqIndex : (s.setTiming T).seqIndex = s.seqIndex := rfl
@[simp] theorem setTiming_holdCnt : (s.setTiming T).holdCnt = s.holdCnt := rfl
@[simp] theorem setTiming_busRdata : (s.setTiming T).busRdata = s.busRdata := rfl
@[simp] theorem setTiming_host : (s.setTiming T).host = s.host := rfl

/-! ### Setting the sequencer -/

@[simp] theorem setSequencer_mode : (s.setSequencer k n).mode = s.mode := rfl
@[simp] theorem setSequencer_sel : (s.setSequencer k n).sel = s.sel := rfl
@[simp] theorem setSequencer_pul : (s.setSequencer k n).pul = s.pul := rfl
@[simp] theorem setSequencer_cmd : (s.setSequencer k n).cmd = s.cmd := rfl
@[simp] theorem setSequencer_busy : (s.setSequencer k n).busy = s.busy := rfl
@[simp] theorem setSequencer_errBusy : (s.setSequencer k n).errBusy = s.errBusy := rfl
@[simp] theorem setSequencer_errIllegal : (s.setSequencer k n).errIllegal = s.errIllegal := rfl
@[simp] theorem setSequencer_cur : (s.setSequencer k n).cur = s.cur := rfl
@[simp] theorem setSequencer_timing : (s.setSequencer k n).timing = s.timing := rfl
@[simp] theorem setSequencer_seqPhases : (s.setSequencer k n).seqPhases = s.seqPhases := rfl
@[simp] theorem setSequencer_seqIndex : (s.setSequencer k n).seqIndex = k := rfl
@[simp] theorem setSequencer_holdCnt : (s.setSequencer k n).holdCnt = n := rfl
@[simp] theorem setSequencer_busRdata : (s.setSequencer k n).busRdata = s.busRdata := rfl
@[simp] theorem setSequencer_host : (s.setSequencer k n).host = s.host := rfl

/-! ### Setting the read-data pin -/

@[simp] theorem setRdata_mode : (s.setRdata r).mode = s.mode := rfl
@[simp] theorem setRdata_sel : (s.setRdata r).sel = s.sel := rfl
@[simp] theorem setRdata_pul : (s.setRdata r).pul = s.pul := rfl
@[simp] theorem setRdata_cmd : (s.setRdata r).cmd = s.cmd := rfl
@[simp] theorem setRdata_busy : (s.setRdata r).busy = s.busy := rfl
@[simp] theorem setRdata_errBusy : (s.setRdata r).errBusy = s.errBusy := rfl
@[simp] theorem setRdata_errIllegal : (s.setRdata r).errIllegal = s.errIllegal := rfl
@[simp] theorem setRdata_cur : (s.setRdata r).cur = s.cur := rfl
@[simp] theorem setRdata_timing : (s.setRdata r).timing = s.timing := rfl
@[simp] theorem setRdata_seqPhases : (s.setRdata r).seqPhases = s.seqPhases := rfl
@[simp] theorem setRdata_seqIndex : (s.setRdata r).seqIndex = s.seqIndex := rfl
@[simp] theorem setRdata_holdCnt : (s.setRdata r).holdCnt = s.holdCnt := rfl
@[simp] theorem setRdata_busRdata : (s.setRdata r).busRdata = r := rfl
@[simp] theorem setRdata_host : (s.setRdata r).host = s.host := rfl

/-! ### Setting the host -/

@[simp] theorem setHost_mode : (s.setHost h).mode = s.mode := rfl
@[simp] theorem setHost_sel : (s.setHost h).sel = s.sel := rfl
@[simp] theorem setHost_pul : (s.setHost h).pul = s.pul := rfl
@[simp] theorem setHost_cmd : (s.setHost h).cmd = s.cmd := rfl
@[simp] theorem setHost_busy : (s.setHost h).busy = s.busy := rfl
@[simp] theorem setHost_errBusy : (s.setHost h).errBusy = s.errBusy := rfl
@[simp] theorem setHost_errIllegal : (s.setHost h).errIllegal = s.errIllegal := rfl
@[simp] theorem setHost_cur : (s.setHost h).cur = s.cur := rfl
@[simp] theorem setHost_timing : (s.setHost h).timing = s.timing := rfl
@[simp] theorem setHost_seqPhases : (s.setHost h).seqPhases = s.seqPhases := rfl
@[simp] theorem setHost_seqIndex : (s.setHost h).seqIndex = s.seqIndex := rfl
@[simp] theorem setHost_holdCnt : (s.setHost h).holdCnt = s.holdCnt := rfl
@[simp] theorem setHost_busRdata : (s.setHost h).busRdata = s.busRdata := rfl
@[simp] theorem setHost_host : (s.setHost h).host = h := rfl

/-! ### `raise ErrBusy` -/

@[simp] theorem raise_errBusy_mode : (s.raise .errBusy).mode = s.mode := rfl
@[simp] theorem raise_errBusy_sel : (s.raise .errBusy).sel = s.sel := rfl
@[simp] theorem raise_errBusy_pul : (s.raise .errBusy).pul = s.pul := rfl
@[simp] theorem raise_errBusy_cmd : (s.raise .errBusy).cmd = s.cmd := rfl
@[simp] theorem raise_errBusy_busy : (s.raise .errBusy).busy = s.busy := rfl
@[simp] theorem raise_errBusy_errBusy : (s.raise .errBusy).errBusy = true := rfl
@[simp] theorem raise_errBusy_errIllegal : (s.raise .errBusy).errIllegal = s.errIllegal := rfl
@[simp] theorem raise_errBusy_cur : (s.raise .errBusy).cur = s.cur := rfl
@[simp] theorem raise_errBusy_timing : (s.raise .errBusy).timing = s.timing := rfl
@[simp] theorem raise_errBusy_seqPhases : (s.raise .errBusy).seqPhases = s.seqPhases := rfl
@[simp] theorem raise_errBusy_seqIndex : (s.raise .errBusy).seqIndex = s.seqIndex := rfl
@[simp] theorem raise_errBusy_holdCnt : (s.raise .errBusy).holdCnt = s.holdCnt := rfl
@[simp] theorem raise_errBusy_busRdata : (s.raise .errBusy).busRdata = s.busRdata := rfl
@[simp] theorem raise_errBusy_host : (s.raise .errBusy).host = s.host := rfl

/-! ### `raise ErrIllegal` -/

@[simp] theorem raise_errIllegal_mode : (s.raise .errIllegal).mode = s.mode := rfl
@[simp] theorem raise_errIllegal_sel : (s.raise .errIllegal).sel = s.sel := rfl
@[simp] theorem raise_errIllegal_pul : (s.raise .errIllegal).pul = s.pul := rfl
@[simp] theorem raise_errIllegal_cmd : (s.raise .errIllegal).cmd = s.cmd := rfl
@[simp] theorem raise_errIllegal_busy : (s.raise .errIllegal).busy = s.busy := rfl
@[simp] theorem raise_errIllegal_errBusy : (s.raise .errIllegal).errBusy = s.errBusy := rfl
@[simp] theorem raise_errIllegal_errIllegal : (s.raise .errIllegal).errIllegal = true := rfl
@[simp] theorem raise_errIllegal_cur : (s.raise .errIllegal).cur = s.cur := rfl
@[simp] theorem raise_errIllegal_timing : (s.raise .errIllegal).timing = s.timing := rfl
@[simp] theorem raise_errIllegal_seqPhases : (s.raise .errIllegal).seqPhases = s.seqPhases := rfl
@[simp] theorem raise_errIllegal_seqIndex : (s.raise .errIllegal).seqIndex = s.seqIndex := rfl
@[simp] theorem raise_errIllegal_holdCnt : (s.raise .errIllegal).holdCnt = s.holdCnt := rfl
@[simp] theorem raise_errIllegal_busRdata : (s.raise .errIllegal).busRdata = s.busRdata := rfl
@[simp] theorem raise_errIllegal_host : (s.raise .errIllegal).host = s.host := rfl

/-! ### Writing `STATUS` -/

@[simp] theorem clearFlags_mode : (s.clearFlags w).mode = s.mode := rfl
@[simp] theorem clearFlags_sel : (s.clearFlags w).sel = s.sel := rfl
@[simp] theorem clearFlags_pul : (s.clearFlags w).pul = s.pul := rfl
@[simp] theorem clearFlags_cmd : (s.clearFlags w).cmd = s.cmd := rfl
@[simp] theorem clearFlags_busy : (s.clearFlags w).busy = s.busy := rfl
@[simp] theorem clearFlags_errBusy : (s.clearFlags w).errBusy = (s.errBusy && !w.getLsbD 2) := rfl
@[simp] theorem clearFlags_errIllegal : (s.clearFlags w).errIllegal = (s.errIllegal && !w.getLsbD 3) := rfl
@[simp] theorem clearFlags_cur : (s.clearFlags w).cur = s.cur := rfl
@[simp] theorem clearFlags_timing : (s.clearFlags w).timing = s.timing := rfl
@[simp] theorem clearFlags_seqPhases : (s.clearFlags w).seqPhases = s.seqPhases := rfl
@[simp] theorem clearFlags_seqIndex : (s.clearFlags w).seqIndex = s.seqIndex := rfl
@[simp] theorem clearFlags_holdCnt : (s.clearFlags w).holdCnt = s.holdCnt := rfl
@[simp] theorem clearFlags_busRdata : (s.clearFlags w).busRdata = s.busRdata := rfl
@[simp] theorem clearFlags_host : (s.clearFlags w).host = s.host := rfl

/-! ### `Apply` -/

@[simp] theorem applyLines_mode : (s.applyLines u).mode = u.mode.getD s.mode := rfl
@[simp] theorem applyLines_sel : (s.applyLines u).sel = u.sel.getD s.sel := rfl
@[simp] theorem applyLines_pul : (s.applyLines u).pul = pulOfLines (u.pulC.getD (s.pul.getLsbD 2)) (u.pulB.getD (s.pul.getLsbD 1)) (u.pulA.getD (s.pul.getLsbD 0)) := rfl
@[simp] theorem applyLines_cmd : (s.applyLines u).cmd = s.cmd := rfl
@[simp] theorem applyLines_busy : (s.applyLines u).busy = s.busy := rfl
@[simp] theorem applyLines_errBusy : (s.applyLines u).errBusy = s.errBusy := rfl
@[simp] theorem applyLines_errIllegal : (s.applyLines u).errIllegal = s.errIllegal := rfl
@[simp] theorem applyLines_cur : (s.applyLines u).cur = s.cur := rfl
@[simp] theorem applyLines_timing : (s.applyLines u).timing = s.timing := rfl
@[simp] theorem applyLines_seqPhases : (s.applyLines u).seqPhases = s.seqPhases := rfl
@[simp] theorem applyLines_seqIndex : (s.applyLines u).seqIndex = s.seqIndex := rfl
@[simp] theorem applyLines_holdCnt : (s.applyLines u).holdCnt = s.holdCnt := rfl
@[simp] theorem applyLines_busRdata : (s.applyLines u).busRdata = s.busRdata := rfl
@[simp] theorem applyLines_host : (s.applyLines u).host = s.host := rfl

/-! ### The instant of a phase -/

@[simp] theorem applyPhase_mode : (s.applyPhase p).mode = p.lines.mode.getD s.mode := rfl
@[simp] theorem applyPhase_sel : (s.applyPhase p).sel = p.lines.sel.getD s.sel := rfl
@[simp] theorem applyPhase_pul : (s.applyPhase p).pul = pulOfLines (p.lines.pulC.getD (s.pul.getLsbD 2)) (p.lines.pulB.getD (s.pul.getLsbD 1)) (p.lines.pulA.getD (s.pul.getLsbD 0)) := rfl
@[simp] theorem applyPhase_cmd : (s.applyPhase p).cmd = s.cmd := rfl
@[simp] theorem applyPhase_busy : (s.applyPhase p).busy = s.busy := rfl
@[simp] theorem applyPhase_errBusy : (s.applyPhase p).errBusy = s.errBusy := rfl
@[simp] theorem applyPhase_errIllegal : (s.applyPhase p).errIllegal = s.errIllegal := rfl
@[simp] theorem applyPhase_cur : (s.applyPhase p).cur = p.cur.getD s.cur := rfl
@[simp] theorem applyPhase_timing : (s.applyPhase p).timing = s.timing := rfl
@[simp] theorem applyPhase_seqPhases : (s.applyPhase p).seqPhases = s.seqPhases := rfl
@[simp] theorem applyPhase_seqIndex : (s.applyPhase p).seqIndex = s.seqIndex := rfl
@[simp] theorem applyPhase_holdCnt : (s.applyPhase p).holdCnt = s.holdCnt := rfl
@[simp] theorem applyPhase_busRdata : (s.applyPhase p).busRdata = s.busRdata := rfl
@[simp] theorem applyPhase_host : (s.applyPhase p).host = s.host := rfl

/-! ### Acceptance -/

@[simp] theorem startCommand_mode : (s.startCommand ps).mode = s.mode := rfl
@[simp] theorem startCommand_sel : (s.startCommand ps).sel = s.sel := rfl
@[simp] theorem startCommand_pul : (s.startCommand ps).pul = s.pul := rfl
@[simp] theorem startCommand_cmd : (s.startCommand ps).cmd = s.cmd := rfl
@[simp] theorem startCommand_busy : (s.startCommand ps).busy = true := rfl
@[simp] theorem startCommand_errBusy : (s.startCommand ps).errBusy = s.errBusy := rfl
@[simp] theorem startCommand_errIllegal : (s.startCommand ps).errIllegal = s.errIllegal := rfl
@[simp] theorem startCommand_cur : (s.startCommand ps).cur = s.cur := rfl
@[simp] theorem startCommand_timing : (s.startCommand ps).timing = s.timing := rfl
@[simp] theorem startCommand_seqPhases : (s.startCommand ps).seqPhases = ps := rfl
@[simp] theorem startCommand_seqIndex : (s.startCommand ps).seqIndex = 0 := rfl
@[simp] theorem startCommand_holdCnt : (s.startCommand ps).holdCnt = 0 := rfl
@[simp] theorem startCommand_busRdata : (s.startCommand ps).busRdata = s.busRdata := rfl
@[simp] theorem startCommand_host : (s.startCommand ps).host = s.host := rfl

/-! ### Acceptance of a reserved word -/

@[simp] theorem startIllegal_mode : (s.startIllegal).mode = s.mode := rfl
@[simp] theorem startIllegal_sel : (s.startIllegal).sel = s.sel := rfl
@[simp] theorem startIllegal_pul : (s.startIllegal).pul = s.pul := rfl
@[simp] theorem startIllegal_cmd : (s.startIllegal).cmd = s.cmd := rfl
@[simp] theorem startIllegal_busy : (s.startIllegal).busy = true := rfl
@[simp] theorem startIllegal_errBusy : (s.startIllegal).errBusy = s.errBusy := rfl
@[simp] theorem startIllegal_errIllegal : (s.startIllegal).errIllegal = true := rfl
@[simp] theorem startIllegal_cur : (s.startIllegal).cur = s.cur := rfl
@[simp] theorem startIllegal_timing : (s.startIllegal).timing = s.timing := rfl
@[simp] theorem startIllegal_seqPhases : (s.startIllegal).seqPhases = [] := rfl
@[simp] theorem startIllegal_seqIndex : (s.startIllegal).seqIndex = 0 := rfl
@[simp] theorem startIllegal_holdCnt : (s.startIllegal).holdCnt = 0 := rfl
@[simp] theorem startIllegal_busRdata : (s.startIllegal).busRdata = s.busRdata := rfl
@[simp] theorem startIllegal_host : (s.startIllegal).host = s.host := rfl

/-! ### Completion -/

@[simp] theorem finishCommand_mode : (s.finishCommand).mode = s.mode := rfl
@[simp] theorem finishCommand_sel : (s.finishCommand).sel = s.sel := rfl
@[simp] theorem finishCommand_pul : (s.finishCommand).pul = s.pul := rfl
@[simp] theorem finishCommand_cmd : (s.finishCommand).cmd = s.cmd := rfl
@[simp] theorem finishCommand_busy : (s.finishCommand).busy = false := rfl
@[simp] theorem finishCommand_errBusy : (s.finishCommand).errBusy = s.errBusy := rfl
@[simp] theorem finishCommand_errIllegal : (s.finishCommand).errIllegal = s.errIllegal := rfl
@[simp] theorem finishCommand_cur : (s.finishCommand).cur = s.cur := rfl
@[simp] theorem finishCommand_timing : (s.finishCommand).timing = s.timing := rfl
@[simp] theorem finishCommand_seqPhases : (s.finishCommand).seqPhases = [] := rfl
@[simp] theorem finishCommand_seqIndex : (s.finishCommand).seqIndex = 0 := rfl
@[simp] theorem finishCommand_holdCnt : (s.finishCommand).holdCnt = 0 := rfl
@[simp] theorem finishCommand_busRdata : (s.finishCommand).busRdata = s.busRdata := rfl
@[simp] theorem finishCommand_host : (s.finishCommand).host = s.host := rfl

/-! ### Reset -/

@[simp] theorem resetBlock_mode : (s.resetBlock).mode = State.reset.mode := rfl
@[simp] theorem resetBlock_sel : (s.resetBlock).sel = State.reset.sel := rfl
@[simp] theorem resetBlock_pul : (s.resetBlock).pul = State.reset.pul := rfl
@[simp] theorem resetBlock_cmd : (s.resetBlock).cmd = State.reset.cmd := rfl
@[simp] theorem resetBlock_busy : (s.resetBlock).busy = State.reset.busy := rfl
@[simp] theorem resetBlock_errBusy : (s.resetBlock).errBusy = State.reset.errBusy := rfl
@[simp] theorem resetBlock_errIllegal : (s.resetBlock).errIllegal = State.reset.errIllegal := rfl
@[simp] theorem resetBlock_cur : (s.resetBlock).cur = State.reset.cur := rfl
@[simp] theorem resetBlock_timing : (s.resetBlock).timing = State.reset.timing := rfl
@[simp] theorem resetBlock_seqPhases : (s.resetBlock).seqPhases = State.reset.seqPhases := rfl
@[simp] theorem resetBlock_seqIndex : (s.resetBlock).seqIndex = State.reset.seqIndex := rfl
@[simp] theorem resetBlock_holdCnt : (s.resetBlock).holdCnt = State.reset.holdCnt := rfl
@[simp] theorem resetBlock_busRdata : (s.resetBlock).busRdata = State.reset.busRdata := rfl
@[simp] theorem resetBlock_host : (s.resetBlock).host = s.host := rfl

/-! ### Several phases: what they never write -/

@[simp] theorem applyPhases_cmd : (s.applyPhases ps).cmd = s.cmd := by
  induction ps generalizing s with
  | nil => rfl
  | cons p ps ih => exact ih (s.applyPhase p)

@[simp] theorem applyPhases_busy : (s.applyPhases ps).busy = s.busy := by
  induction ps generalizing s with
  | nil => rfl
  | cons p ps ih => exact ih (s.applyPhase p)

@[simp] theorem applyPhases_errBusy : (s.applyPhases ps).errBusy = s.errBusy := by
  induction ps generalizing s with
  | nil => rfl
  | cons p ps ih => exact ih (s.applyPhase p)

@[simp] theorem applyPhases_errIllegal : (s.applyPhases ps).errIllegal = s.errIllegal := by
  induction ps generalizing s with
  | nil => rfl
  | cons p ps ih => exact ih (s.applyPhase p)

@[simp] theorem applyPhases_timing : (s.applyPhases ps).timing = s.timing := by
  induction ps generalizing s with
  | nil => rfl
  | cons p ps ih => exact ih (s.applyPhase p)

@[simp] theorem applyPhases_seqPhases : (s.applyPhases ps).seqPhases = s.seqPhases := by
  induction ps generalizing s with
  | nil => rfl
  | cons p ps ih => exact ih (s.applyPhase p)

@[simp] theorem applyPhases_seqIndex : (s.applyPhases ps).seqIndex = s.seqIndex := by
  induction ps generalizing s with
  | nil => rfl
  | cons p ps ih => exact ih (s.applyPhase p)

@[simp] theorem applyPhases_holdCnt : (s.applyPhases ps).holdCnt = s.holdCnt := by
  induction ps generalizing s with
  | nil => rfl
  | cons p ps ih => exact ih (s.applyPhase p)

@[simp] theorem applyPhases_busRdata : (s.applyPhases ps).busRdata = s.busRdata := by
  induction ps generalizing s with
  | nil => rfl
  | cons p ps ih => exact ih (s.applyPhase p)

@[simp] theorem applyPhases_host : (s.applyPhases ps).host = s.host := by
  induction ps generalizing s with
  | nil => rfl
  | cons p ps ih => exact ih (s.applyPhase p)

@[simp] theorem applyPhases_nil : s.applyPhases [] = s := rfl

@[simp] theorem applyPhases_cons : s.applyPhases (p :: ps) = (s.applyPhase p).applyPhases ps := rfl

theorem applyPhases_append (qs : List Phase) : s.applyPhases (ps ++ qs) = (s.applyPhases ps).applyPhases qs := by
  simp [State.applyPhases]

end Sys2Proof.Machine
end

