-- ==== Sys2Proof/Laws/Bits.lean ====
section
/-!
SUPPORT. The pulse register as three lines, and the fields of assembled words (R21, R81).
-/

namespace Sys2Proof.Machine

/-- A pulse register is its three lines. -/
@[simp] theorem pulOfLines_eta (v : Code) : pulOfLines v[2] v[1] v[0] = v := by
  revert v; decide

@[simp] theorem pulOfLines_lineA (c b a : Bool) : (pulOfLines c b a)[0] = a := by
  revert c b a; decide

@[simp] theorem pulOfLines_lineB (c b a : Bool) : (pulOfLines c b a)[1] = b := by
  revert c b a; decide

@[simp] theorem pulOfLines_lineC (c b a : Bool) : (pulOfLines c b a)[2] = c := by
  revert c b a; decide

/-- `LineSet.pul c` sets the whole pulse register, whatever it held. -/
@[simp] theorem applyLines_setPul (s : State) (c : Code) : (s.applyLines (LineSet.pul c)).pul = c := by
  simp [LineSet.pul]

end Sys2Proof.Machine

namespace Sys2Proof

/-- Two fields of a word, side by side, are one field. -/
theorem append_fields {v : Nat} (w : BitVec v) (lo m n : Nat) :
    w.extractLsb' (lo + m) n ++ w.extractLsb' lo m = w.extractLsb' lo (n + m) := by
  apply BitVec.eq_of_getLsbD_eq
  intro i hi
  simp only [BitVec.getLsbD_append, BitVec.getLsbD_extractLsb']
  by_cases h : i < m
  · simp [h, hi]
  · have h' : i - m < n := by omega
    have e : lo + m + (i - m) = lo + i := by omega
    simp [h, hi, h', e]

/-- The low field of two side by side. -/
theorem extract_low {m n : Nat} (x : BitVec n) (y : BitVec m) : (x ++ y).extractLsb' 0 m = y := by
  apply BitVec.eq_of_getLsbD_eq
  intro i hi
  simp [BitVec.getLsbD_append, hi]

/-- A field of two words side by side that lies in the high one. -/
theorem extract_high {m n : Nat} (x : BitVec n) (y : BitVec m) (lo k : Nat) :
    (x ++ y).extractLsb' (m + lo) k = x.extractLsb' lo k := by
  apply BitVec.eq_of_getLsbD_eq
  intro i hi
  have h : ¬ m + lo + i < m := by omega
  have e : m + lo + i - m = lo + i := by omega
  simp only [BitVec.getLsbD_append, BitVec.getLsbD_extractLsb', h, e, if_false]

/-- The fields make up the word (R81). -/
theorem word_of_fields (w : Word) : w.opField ++ w.lenField ++ w.slotField ++ w.patField = w := by
  unfold Word.opField Word.lenField Word.slotField Word.patField
  rw [append_fields w 9 3 4, append_fields w 6 3 7, append_fields w 0 6 10]
  simp

section
variable (op : BitVec 4) (len : BitVec 3) (slot : Slot) (pat : Pattern)

/-- The opcode of an assembled word (R81). -/
theorem opField_append : Word.opField (op ++ len ++ slot ++ pat) = op := by
  unfold Word.opField
  rw [extract_high (op ++ len ++ slot) pat 6 4, extract_high (op ++ len) slot 3 4, extract_high op len 0 4]
  simp

/-- The length field of an assembled word (R81). -/
theorem lenField_append : Word.lenField (op ++ len ++ slot ++ pat) = len := by
  unfold Word.lenField
  rw [extract_high (op ++ len ++ slot) pat 3 3, extract_high (op ++ len) slot 0 3]
  exact extract_low op len

/-- The slot field of an assembled word (R81). -/
theorem slotField_append : Word.slotField (op ++ len ++ slot ++ pat) = slot := by
  unfold Word.slotField
  rw [extract_high (op ++ len ++ slot) pat 0 3]
  exact extract_low (op ++ len) slot

/-- The pattern field of an assembled word (R81). -/
theorem patField_append : Word.patField (op ++ len ++ slot ++ pat) = pat :=
  extract_low (op ++ len ++ slot) pat

end

end Sys2Proof
end

