-- ==== Sys2Proof/Laws/Ops.lean ====
section
/-!
SUPPORT. One lemma per shared operation that says once what it can do: accepting a command, entering a phase, an edge of
the sequencer, a write, an access, and a whole edge of the block.
-/

namespace Sys2Proof.Machine

variable {s t : State} {clk k : Nat} {cfg : Config}

/-! ### Accepting a command -/

/-- What every meaning does: the command's phases are taken up; a reserved word raises ErrIllegal (R121, R155). -/
theorem exec_eq (i : Instr) (s : State) :
    exec i s = .next (if isReserved i then s.startIllegal else s.startCommand (phasesOf i s.timing)) := by
  cases i <;> rfl

/-- What every meaning leaves alone (R121, R124). -/
theorem exec_frame {i : Instr} (h : exec i s = .next t) :
    t.mode = s.mode ∧ t.sel = s.sel ∧ t.pul = s.pul ∧ t.cmd = s.cmd ∧ t.errBusy = s.errBusy ∧ t.cur = s.cur ∧
      t.timing = s.timing ∧ t.busRdata = s.busRdata ∧ t.host = s.host := by
  rw [exec_eq] at h
  cases h
  split <;> simp

/-- A reserved command has no phase (R155). -/
theorem phasesOf_reserved {i : Instr} (h : isReserved i = true) (T : Timing) : phasesOf i T = [] := by
  cases i <;> first | rfl | cases h

/-- What every meaning makes of the sequencer (R121). -/
theorem exec_starts {i : Instr} (h : exec i s = .next t) :
    t.busy = true ∧ t.seqPhases = phasesOf i s.timing ∧ t.seqIndex = 0 ∧ t.holdCnt = 0 ∧
      t.errIllegal = (s.errIllegal || isReserved i) := by
  rw [exec_eq] at h
  cases h
  split <;> rename_i hr
  · simp [phasesOf_reserved hr, hr]
  · simp [hr]

/-! ### The sequencer -/

theorem enterPhase_some {p : Phase} (h : s.seqPhases[k]? = some p) :
    s.enterPhase clk k = (s.applyPhase p).setSequencer k (holdCycles clk p.hold) := by
  simp [State.enterPhase, h]

theorem enterPhase_none (h : s.seqPhases[k]? = none) : s.enterPhase clk k = s.finishCommand := by
  simp [State.enterPhase, h]

/-- A phase lasts at least one cycle (R241). -/
theorem holdCycles_pos (clk : Nat) (d : Word) : 0 < holdCycles clk d := by
  unfold holdCycles; omega

theorem sequencerEdge_idle (h : s.busy = false) : s.sequencerEdge clk = s := by
  simp [State.sequencerEdge, h]

theorem sequencerEdge_pending (h : s.busy = true) (h0 : s.holdCnt = 0) :
    s.sequencerEdge clk = s.enterPhase clk s.seqIndex := by
  simp [State.sequencerEdge, h, h0]

theorem sequencerEdge_ending (h : s.busy = true) (h1 : s.holdCnt = 1) :
    s.sequencerEdge clk = s.enterPhase clk (s.seqIndex + 1) := by
  simp [State.sequencerEdge, h, h1]

theorem sequencerEdge_holding (h : s.busy = true) (h1 : 1 < s.holdCnt) :
    s.sequencerEdge clk = s.setSequencer s.seqIndex (s.holdCnt - 1) := by
  have h0 : s.holdCnt ≠ 0 := by omega
  have h2 : s.holdCnt ≠ 1 := by omega
  simp [State.sequencerEdge, h, h0, h2]

/-- The index of the phase an edge would begin, if it begins one (R122, R241). -/
def nextPhase (s : State) : Nat := if s.holdCnt = 0 then s.seqIndex else s.seqIndex + 1

/-- Everything an edge of the sequencer can do: nothing, count, begin a phase, complete (R122, R241). -/
theorem sequencerEdge_cases (clk : Nat) (s : State) :
    (s.busy = false ∧ s.sequencerEdge clk = s) ∨
    (s.busy = true ∧ 1 < s.holdCnt ∧ s.sequencerEdge clk = s.setSequencer s.seqIndex (s.holdCnt - 1)) ∨
    (∃ p, s.busy = true ∧ s.holdCnt ≤ 1 ∧ s.seqPhases[nextPhase s]? = some p ∧
      s.sequencerEdge clk = (s.applyPhase p).setSequencer (nextPhase s) (holdCycles clk p.hold)) ∨
    (s.busy = true ∧ s.holdCnt ≤ 1 ∧ s.seqPhases[nextPhase s]? = none ∧ s.sequencerEdge clk = s.finishCommand) := by
  by_cases hb : s.busy = true
  · by_cases h1 : 1 < s.holdCnt
    · exact .inr (.inl ⟨hb, h1, sequencerEdge_holding hb h1⟩)
    · have he : s.sequencerEdge clk = s.enterPhase clk (nextPhase s) := by
        by_cases h0 : s.holdCnt = 0
        · simp [sequencerEdge_pending hb h0, nextPhase, h0]
        · simp [sequencerEdge_ending hb (show s.holdCnt = 1 by omega), nextPhase, h0]
      cases hp : s.seqPhases[nextPhase s]? with
      | some p => exact .inr (.inr (.inl ⟨p, hb, by omega, rfl, by rw [he, enterPhase_some hp]⟩))
      | none => exact .inr (.inr (.inr ⟨hb, by omega, rfl, by rw [he, enterPhase_none hp]⟩))
  · have hb' : s.busy = false := by simpa using hb
    exact .inl ⟨hb', sequencerEdge_idle hb'⟩

/-- What an edge of the sequencer never writes (R124). -/
theorem sequencerEdge_frame (clk : Nat) (s : State) :
    (s.sequencerEdge clk).cmd = s.cmd ∧ (s.sequencerEdge clk).timing = s.timing ∧
      (s.sequencerEdge clk).errBusy = s.errBusy ∧ (s.sequencerEdge clk).errIllegal = s.errIllegal ∧
      (s.sequencerEdge clk).busRdata = s.busRdata ∧ (s.sequencerEdge clk).host = s.host := by
  obtain ⟨-, e⟩ | ⟨-, -, e⟩ | ⟨p, -, -, -, e⟩ | ⟨-, -, -, e⟩ := sequencerEdge_cases clk s <;> rw [e] <;> simp

@[simp] theorem sequencerEdge_cmd : (s.sequencerEdge clk).cmd = s.cmd := (sequencerEdge_frame clk s).1
@[simp] theorem sequencerEdge_timing : (s.sequencerEdge clk).timing = s.timing := (sequencerEdge_frame clk s).2.1
@[simp] theorem sequencerEdge_errBusy : (s.sequencerEdge clk).errBusy = s.errBusy := (sequencerEdge_frame clk s).2.2.1
@[simp] theorem sequencerEdge_errIllegal : (s.sequencerEdge clk).errIllegal = s.errIllegal :=
  (sequencerEdge_frame clk s).2.2.2.1
@[simp] theorem sequencerEdge_busRdata : (s.sequencerEdge clk).busRdata = s.busRdata :=
  (sequencerEdge_frame clk s).2.2.2.2.1
@[simp] theorem sequencerEdge_host : (s.sequencerEdge clk).host = s.host := (sequencerEdge_frame clk s).2.2.2.2.2

/-- The sequencer does not look at the host. -/
theorem sequencerEdge_setHost (h : HostAgent) : (s.setHost h).sequencerEdge clk = (s.sequencerEdge clk).setHost h := by
  simp only [State.sequencerEdge, State.enterPhase]
  split_ifs <;> simp only [setHost_busy, setHost_holdCnt, setHost_seqIndex, setHost_seqPhases] at * <;>
    first | contradiction | rfl | (split <;> rfl)

/-- The sequencer does not look at the read-data pin. -/
theorem sequencerEdge_setRdata (r : Option Word) :
    (s.setRdata r).sequencerEdge clk = (s.sequencerEdge clk).setRdata r := by
  simp only [State.sequencerEdge, State.enterPhase]
  split_ifs <;> simp only [setRdata_busy, setRdata_holdCnt, setRdata_seqIndex, setRdata_seqPhases] at * <;>
    first | contradiction | rfl | (split <;> rfl)

/-- The sequencer makes nothing busy (R121: only an accepted write does). -/
theorem busy_of_sequencerEdge (h : (s.sequencerEdge clk).busy = true) : s.busy = true := by
  obtain ⟨hb, e⟩ | ⟨hb, -, e⟩ | ⟨p, hb, -, -, e⟩ | ⟨hb, -, -, e⟩ := sequencerEdge_cases clk s
  · rw [e, hb] at h; cases h
  all_goals exact hb

/-! ### Writes and accesses -/

/-- What a write of `CMD` while idle comes to (R25, R121). -/
theorem accept_eq (w : Word) (s : State) :
    s.accept w = .next (if isReserved (decode w) then (s.setCmd w).startIllegal
      else (s.setCmd w).startCommand (phasesOf (decode w) s.timing)) :=
  exec_eq (decode w) (s.setCmd w)

/-- Is the register at this offset guarded against writes while busy (R202)? -/
def isGuarded (n : Offset) : Bool := n == 0x0#4 || isTimingOffset n

/-- Everything a write can do (R25, R26, R29, R30, R202). -/
theorem writeReg_cases {busy : Bool} {n : Offset} {v : Word} (h : s.writeReg busy n v = .next t) :
    (busy = true ∧ isGuarded n = true ∧ t = s.raise .errBusy) ∨
    (busy = false ∧ n = 0x0#4 ∧ s.accept v = .next t) ∨
    (n = 0x1#4 ∧ t = s.clearFlags v) ∨
    (busy = false ∧ isTimingOffset n = true ∧ t = s.setTiming (s.timing.write n v)) ∨
    (isGuarded n = false ∧ n ≠ 0x1#4 ∧ t = s) := by
  unfold State.writeReg at h
  split at h
  · rename_i h0
    split at h
    · cases h; exact .inl ⟨‹_›, by simp [isGuarded, h0], rfl⟩
    · exact .inr (.inl ⟨by simpa using ‹¬busy = true›, h0, h⟩)
  · rename_i h0
    split at h
    · cases h; exact .inr (.inr (.inl ⟨‹_›, rfl⟩))
    · rename_i h1
      split at h
      · split at h
        · cases h; exact .inl ⟨‹_›, by simp [isGuarded, ‹isTimingOffset n = true›], rfl⟩
        · cases h; exact .inr (.inr (.inr (.inl ⟨by simpa using ‹¬busy = true›, ‹_›, rfl⟩)))
      · cases h; exact .inr (.inr (.inr (.inr ⟨by simp [isGuarded, h0, ‹¬isTimingOffset n = true›], h1, rfl⟩)))

/-- A write always has a next state (U6, U7: every register write is defined). -/
theorem writeReg_next (busy : Bool) (n : Offset) (v : Word) (s : State) : ∃ t, s.writeReg busy n v = .next t := by
  unfold State.writeReg
  split
  · split
    · exact ⟨_, rfl⟩
    · exact ⟨_, accept_eq v s⟩
  · split
    · exact ⟨_, rfl⟩
    · split
      · split <;> exact ⟨_, rfl⟩
      · exact ⟨_, rfl⟩

/-- The block always has a next state: no command and no access makes it stop (R200). -/
theorem clockEdge_next (cfg : Config) (pins : Pins) (s : State) : ∃ t, s.clockEdge cfg pins = .next t := by
  unfold State.clockEdge
  split
  · exact ⟨_, rfl⟩
  · cases pins.access with
    | none => exact ⟨_, rfl⟩
    | some a => cases a with
      | read n => exact ⟨_, rfl⟩
      | write n v => exact writeReg_next _ n v _

/-- Everything an edge of the block can do, by what is on its pins (R230, R233, R241). -/
theorem clockEdge_cases {pins : Pins} (h : s.clockEdge cfg pins = .next t) :
    (pins.rst = true ∧ t = s.resetBlock) ∨
    (pins.rst = false ∧ pins.access = none ∧ t = (s.sequencerEdge cfg.clkPerMs).setRdata none) ∨
    (∃ n, pins.rst = false ∧ pins.access = some (.read n) ∧
      t = (s.sequencerEdge cfg.clkPerMs).setRdata (some ((s.sequencerEdge cfg.clkPerMs).readReg n))) ∨
    (∃ n v, pins.rst = false ∧ pins.access = some (.write n v) ∧
      State.writeReg (busySeen cfg s (s.sequencerEdge cfg.clkPerMs)) n v
        ((s.sequencerEdge cfg.clkPerMs).setRdata none) = .next t) := by
  unfold State.clockEdge at h
  split at h
  · cases h; exact .inl ⟨‹_›, rfl⟩
  · rename_i hr
    have hr : pins.rst = false := by simpa using hr
    cases ha : pins.access with
    | none => rw [ha] at h; cases h; exact .inr (.inl ⟨hr, rfl, rfl⟩)
    | some a => cases a with
      | read n => rw [ha] at h; cases h; exact .inr (.inr (.inl ⟨n, hr, rfl, rfl⟩))
      | write n v => rw [ha] at h; exact .inr (.inr (.inr ⟨n, v, hr, rfl, h⟩))

/-- While idle a write finds `BUSY = 0`, whatever the platform (R25). -/
theorem busySeen_idle (h : s.busy = false) : busySeen cfg s (s.sequencerEdge clk) = false := by
  rw [sequencerEdge_idle h]; simp [busySeen, h]

/-- While the command goes on after this edge, a write finds `BUSY = 1`, whatever the platform (R202). -/
theorem busySeen_busy (h : (s.sequencerEdge clk).busy = true) : busySeen cfg s (s.sequencerEdge clk) = true := by
  simp [busySeen, h]

/-- A write that finds `BUSY = 0` finds an idle block (R121). -/
theorem idle_of_busySeen (h : busySeen cfg s (s.sequencerEdge clk) = false) : (s.sequencerEdge clk).busy = false := by
  cases hb : (s.sequencerEdge clk).busy with
  | false => rfl
  | true => rw [busySeen_busy hb] at h; cases h

end Sys2Proof.Machine
end

