-- ==== Sys2Proof/Laws/Phases.lean ====
section
/-!
SUPPORT. Facts about phase lists: what the last assignment of each register is, what the first phase of a command
writes and what the later ones leave alone, and that every command leaves the pulse lines idle (R34, R121, R145, R156).
-/

namespace Sys2Proof.Machine

variable {s t : State} {p : Phase} {ps : List Phase} {T : Timing} {k : Nat}

/-! ### The last assignment of a register -/

/-- The last assignment that a phase list makes to what `f` reads, if it makes one. -/
def lastOf {α : Type} (f : Phase → Option α) : List Phase → Option α
  | [] => none
  | p :: ps => (lastOf f ps).or (f p)

theorem lastOf_concat {α : Type} (f : Phase → Option α) (ps : List Phase) (p : Phase) :
    lastOf f (ps ++ [p]) = (f p).or (lastOf f ps) := by
  induction ps with
  | nil => simp [lastOf]
  | cons q ps ih => simp [lastOf, ih, Option.or_assoc]

/-- If only the first phase of a list assigns a register, that is its last assignment. -/
theorem lastOf_head {α : Type} (f : Phase → Option α) (h : ∀ q ∈ ps, f q = none) : lastOf f (p :: ps) = f p := by
  have e : lastOf f ps = none := by
    induction ps with
    | nil => rfl
    | cons q ps ih => simp [lastOf, ih fun r hr => h r (List.mem_cons_of_mem q hr), h q List.mem_cons_self]
  simp [lastOf, e]

theorem getD_or {α : Type} (a b : Option α) (d : α) : (a.or b).getD d = a.getD (b.getD d) := by
  cases a <;> rfl

/-- What a phase list makes of the lines and `CUR`: the last assignment of each, or what was there (R120, R122). -/
theorem applyPhases_outputs (ps : List Phase) (s : State) :
    (s.applyPhases ps).mode = (lastOf (·.lines.mode) ps).getD s.mode ∧
    (s.applyPhases ps).sel = (lastOf (·.lines.sel) ps).getD s.sel ∧
    (s.applyPhases ps).cur = (lastOf (·.cur) ps).getD s.cur ∧
    (s.applyPhases ps).pul = pulOfLines ((lastOf (·.lines.pulC) ps).getD s.pul[2])
      ((lastOf (·.lines.pulB) ps).getD s.pul[1]) ((lastOf (·.lines.pulA) ps).getD s.pul[0]) := by
  induction ps generalizing s with
  | nil => simp [lastOf]
  | cons p ps ih =>
    obtain ⟨h1, h2, h3, h4⟩ := ih (s.applyPhase p)
    simp [lastOf, h1, h2, h3, h4]

/-! ### What the phases of a command write -/

/-- The four phases of a dot write pulse lines alone (R145). -/
theorem dotPhases_frame {q : Position} (h : p ∈ dotPhases T q) :
    p.lines.mode = none ∧ p.lines.sel = none ∧ p.cur = none := by
  simp only [dotPhases, List.mem_cons, List.not_mem_nil, or_false] at h
  rcases h with rfl | rfl | rfl | rfl <;> exact ⟨rfl, rfl, rfl⟩

/-- After its first phase `PLAY` writes pulse lines alone (R141, R249). -/
theorem playPhases_tail {len : BitVec 3} {slot : Slot} {pat : Pattern} (h : p ∈ (playPhases len slot pat T).tail) :
    p.lines.mode = none ∧ p.lines.sel = none ∧ p.cur = none := by
  unfold playPhases at h
  split at h
  · obtain ⟨q, -, hq⟩ := List.mem_flatMap.mp h
    exact dotPhases_frame hq
  · cases h

/-- After its first phase the sweep writes neither `MODE` nor `CUR` (R131, R249). -/
theorem sweepPhases_tail (h : p ∈ (sweepPhases T).tail) : p.lines.mode = none ∧ p.cur = none := by
  simp only [sweepPhases, allSlots, allPositions, List.flatMap_cons, List.flatMap_nil, List.map_cons, List.map_nil,
    List.cons_append, List.nil_append, List.append_nil, List.tail_cons] at h
  revert p
  simp only [List.forall_mem_cons, List.not_mem_nil, false_implies, implies_true, and_true]
  simp [sweepPhase, LineSet.pul]

/-- `MODE` and `CUR` are written by a command's first phase alone (R121, R249). -/
theorem phasesOf_tail {i : Instr} (h : p ∈ (phasesOf i T).tail) : p.lines.mode = none ∧ p.cur = none := by
  cases i with
  | sweep => exact sweepPhases_tail h
  | play len slot pat => exact ⟨(playPhases_tail h).1, (playPhases_tail h).2.2⟩
  | _ => cases h

/-- Outside a sweep, `SEL` too is written by a command's first phase alone (R249). -/
theorem phasesOf_tail_sel {i : Instr} (hi : i ≠ .sweep) (h : p ∈ (phasesOf i T).tail) : p.lines.sel = none := by
  cases i with
  | sweep => exact absurd rfl hi
  | play len slot pat => exact (playPhases_tail h).2.1
  | _ => cases h

theorem mem_tail_of_getElem? {k : Nat} (h : ps[k + 1]? = some p) : p ∈ ps.tail := by
  cases ps with
  | nil => simp at h
  | cons q qs => exact List.mem_of_getElem? (by simpa using h)

/-- The first phase of a command: the sweep's, an address entry, or a pure hold (R131, R136, R141, R150). -/
theorem phasesOf_head {i : Instr} (h : (phasesOf i T)[0]? = some p) :
    (i = .sweep ∧ p.lines.mode = some .sweep ∧ p.lines.sel = some 0#3 ∧ p.cur = some Cur.zero) ∨
    (∃ slot pat, (i = .addr slot ∧ pat = 0#6 ∨ i = .play 6#3 slot pat) ∧ p = addressPhase T slot pat) ∨
    ((i = .waitSettle ∨ i = .waitChar) ∧ p.lines = {} ∧ p.cur = none) := by
  cases i with
  | sweep => cases h; exact .inl ⟨rfl, rfl, rfl, rfl⟩
  | addr slot => cases h; exact .inr (.inl ⟨slot, 0#6, .inl ⟨rfl, rfl⟩, rfl⟩)
  | play len slot pat =>
    simp only [phasesOf, playPhases] at h
    split at h
    · rename_i hl
      cases h
      exact .inr (.inl ⟨slot, pat, .inr (by rw [hl]), rfl⟩)
    · cases h
  | waitSettle => cases h; exact .inr (.inr ⟨.inl rfl, rfl, rfl⟩)
  | waitChar => cases h; exact .inr (.inr ⟨.inr rfl, rfl, rfl⟩)
  | _ => cases h

/-! ### Every command leaves the pulse lines idle -/

theorem applyPhases_dot_pul (s : State) (q : Position) : (s.applyPhases (dotPhases T q)).pul = 0#3 := by
  simp [dotPhases, LineSet.pul]
  rfl

theorem applyPhases_dots_pul (qs : List Position) (h : s.pul = 0#3) :
    (s.applyPhases (qs.flatMap (dotPhases T))).pul = 0#3 := by
  induction qs generalizing s with
  | nil => simpa using h
  | cons q qs ih =>
    rw [List.flatMap_cons, applyPhases_append]
    exact ih (applyPhases_dot_pul s q)

/-- Every command leaves the pulse lines idle (R34, R156). -/
theorem applyPhases_pul (i : Instr) (T : Timing) (h : s.pul = 0#3) : (s.applyPhases (phasesOf i T)).pul = 0#3 := by
  cases i with
  | sweep =>
    rw [phasesOf, sweepPhases, applyPhases_append]
    exact applyLines_setPul _ 0#3
  | addr slot => simp [phasesOf, addrPhases, addressPhase, h]; rfl
  | play len slot pat =>
    simp only [phasesOf, playPhases]
    split
    · refine applyPhases_dots_pul _ ?_
      simp [addressPhase, h]
      rfl
    · exact h
  | waitSettle => simp [phasesOf, waitSettlePhases, h]; rfl
  | waitChar => simp [phasesOf, waitCharPhases, h]; rfl
  | _ => exact h

end Sys2Proof.Machine
end

