-- ==== Sys2Proof/Laws/Commands.lean ====
section
/-!
SUPPORT. What the phase list of each command comes to: the state after it, and the sum of any measure of its holds (cycles
R241, milliseconds R132 and R143).
-/

namespace Sys2Proof.Machine

variable (s : State) (T : Timing) (f : Word → Nat)

/-! ### The state after a command's phases -/

/-- After the sweep (R131). -/
theorem applyPhases_sweep :
    s.applyPhases (sweepPhases T) = { s with mode := .sweep, sel := 7#3, pul := 0#3, cur := Cur.zero } := by
  obtain ⟨h1, h2, h3, -⟩ := applyPhases_outputs (sweepPhases T) s
  apply State.ext
  · rw [h1]; rfl
  · rw [h2]; rfl
  · rw [sweepPhases, applyPhases_append]
    exact applyLines_setPul _ 0#3
  all_goals first | (rw [h3]; rfl) | simp

/-- After an address entry (R136, R141). -/
theorem applyPhase_address (slot : Slot) (pat : Pattern) :
    s.applyPhase (addressPhase T slot pat) = { s with mode := .address, sel := slot, cur := ⟨slot, true, pat⟩ } := by
  apply State.ext <;> simp [addressPhase, selCode]

/-- After a pure hold nothing has changed (R150). -/
theorem applyPhase_hold (d : Word) : s.applyPhase { lines := {}, hold := d } = s := by
  apply State.ext <;> simp

/-- After the pulse of one dot the pulse lines are idle, and that is all (R145). -/
theorem applyPhases_dot (q : Position) : s.applyPhases (dotPhases T q) = { s with pul := 0#3 } := by
  obtain ⟨h1, h2, h3, -⟩ := applyPhases_outputs (dotPhases T q) s
  apply State.ext
  · rw [h1]; rfl
  · rw [h2]; rfl
  · exact applyPhases_dot_pul s q
  all_goals first | (rw [h3]; rfl) | simp

/-- After the pulses of several dots (R141, R145). -/
theorem applyPhases_dots (qs : List Position) :
    s.applyPhases (qs.flatMap (dotPhases T)) = { s with pul := if qs = [] then s.pul else 0#3 } := by
  induction qs generalizing s with
  | nil => simp
  | cons q qs ih =>
    rw [List.flatMap_cons, applyPhases_append, applyPhases_dot, ih]
    simp

/-- A pattern has no active dot exactly when it is empty (R144). -/
theorem filter_dots_nil (pat : Pattern) :
    (allPositions.filter fun p => pat.getLsbD p.val) = [] ↔ pat = 0#6 := by
  revert pat; decide

/-- After a well-formed `PLAY` (R141). -/
theorem applyPhases_play (slot : Slot) (pat : Pattern) :
    s.applyPhases (playPhases 6#3 slot pat T) =
      { s with mode := .address, sel := slot, pul := if pat = 0#6 then s.pul else 0#3, cur := ⟨slot, true, pat⟩ } := by
  unfold playPhases
  rw [if_pos rfl, applyPhases_cons, applyPhase_address, applyPhases_dots, if_congr (filter_dots_nil pat) rfl rfl]

/-! ### Sums over the holds of a command -/

theorem sum_holds_sweep : ((sweepPhases T).map fun p => f p.hold).sum = 48 * f T.sweepStep + f 0#16 := by
  have e : (sweepPhases T).map (fun p => f p.hold) = List.replicate 48 (f T.sweepStep) ++ [f 0#16] := rfl
  rw [e, List.sum_append, List.sum_replicate, List.sum_singleton, smul_eq_mul]

theorem sum_holds_dots (qs : List Position) :
    ((qs.flatMap (dotPhases T)).map fun p => f p.hold).sum = qs.length * (3 * f T.pulseHold + f T.pulseGap) := by
  induction qs with
  | nil => simp
  | cons q qs ih =>
    have e : ((dotPhases T q).map fun p => f p.hold).sum = 3 * f T.pulseHold + f T.pulseGap := by
      simp [dotPhases]; omega
    rw [List.flatMap_cons, List.map_append, List.sum_append, ih, e, List.length_cons]
    ring

theorem sum_holds_play (slot : Slot) (pat : Pattern) :
    ((playPhases 6#3 slot pat T).map fun p => f p.hold).sum =
      f T.addrSetup + (allPositions.filter fun p => pat.getLsbD p.val).length * (3 * f T.pulseHold + f T.pulseGap) := by
  unfold playPhases
  rw [if_pos rfl, List.map_cons, List.sum_cons, sum_holds_dots]
  rfl

/-- The cycles of a phase list: its milliseconds, and one for each zero hold (R241). -/
theorem cyclesOf_eq (clk : Nat) (hc : 0 < clk) (ps : List Phase) :
    cyclesOf clk ps = duration ps * clk + (ps.filter fun p => p.hold == 0#16).length := by
  induction ps with
  | nil => simp [cyclesOf, duration]
  | cons p ps ih =>
    have hp : holdCycles clk p.hold = p.hold.toNat * clk + (if p.hold = 0#16 then 1 else 0) := by
      unfold holdCycles
      split
      · rename_i h; simp [h]
      · rename_i h
        have : 0 < p.hold.toNat := by
          rcases Nat.eq_zero_or_pos p.hold.toNat with h0 | h0
          · exact absurd (BitVec.eq_of_toNat_eq (by simpa using h0)) h
          · exact h0
        have := Nat.mul_pos this hc
        omega
    simp only [cyclesOf, duration, List.map_cons, List.sum_cons] at ih ⊢
    rw [ih, hp, Nat.add_mul]
    by_cases h : p.hold = 0#16
    · rw [if_pos h, List.filter_cons_of_pos (by simp [h]), List.length_cons]; omega
    · rw [if_neg h, List.filter_cons_of_neg (by simp [h])]; omega

/-- `CLK_PER_MS` is positive (R241). -/
theorem clkPerMs_pos (c : Config) : 0 < c.clkPerMs := Nat.succ_pos _

end Sys2Proof.Machine
end

