-- ==== Sys2Proof/Laws/Host.lean ====
section
/-!
SUPPORT. What the host's turn can be, and what a step does for a host that is silent or whose next operation is known.
-/

namespace Sys2Proof.Machine

variable {s t : State} {cfg : Config} {h : HostAgent} {turn : Turn}

/-- A step has a next state, or the host agent's turn was refused (R200). -/
theorem step_cases (s : State) :
    (∃ turn t, s.host.turn Config.platform = .ok turn ∧
      State.clockEdge Config.platform turn.pins (s.setHost turn.host) = .next t ∧
      step s = .next (if turn.polling then t.settlePoll else t)) ∨
    (∃ r, s.host.turn Config.platform = .error r ∧ step s = .refused r) := by
  cases ht : s.host.turn Config.platform with
  | error r => exact .inr ⟨r, rfl, by simp [step, machineEdge, ht]⟩
  | ok turn =>
    obtain ⟨t, hc⟩ := clockEdge_next Config.platform turn.pins (s.setHost turn.host)
    refine .inl ⟨turn, t, rfl, hc, ?_⟩
    simp only [step, machineEdge, ht, hc]
    split <;> rfl

/-- A step that has a next state, taken apart: the host's turn and the block's edge. -/
theorem step_next (hs : step s = .next t) :
    ∃ turn u, s.host.turn Config.platform = .ok turn ∧
      State.clockEdge Config.platform turn.pins (s.setHost turn.host) = .next u ∧
      t = if turn.polling then u.settlePoll else u := by
  obtain ⟨turn, u, ht, hc, e⟩ | ⟨r, -, e⟩ := step_cases s
  · exact ⟨turn, u, ht, hc, by rw [e] at hs; cases hs; rfl⟩
  · rw [e] at hs; cases hs

/-- Only a poll is taken off the script after its edge, and a poll is a read of `STATUS` (R177). -/
theorem act_polling (ha : h.act cfg = .ok turn) (hp : turn.polling = true) :
    turn.pins = ⟨false, some (.read 0x1#4)⟩ ∧ turn.host = h ∧ h.script.head? = some .poll := by
  unfold HostAgent.act at ha
  split at ha
  case h_5 e => cases ha; exact ⟨rfl, rfl, by rw [e]; rfl⟩
  case h_3 addr width rest e =>
    cases hb : busOffset cfg addr width with
    | error r => rw [hb] at ha; cases ha
    | ok n => rw [hb] at ha; cases ha; cases hp
  case h_4 addr width v rest e =>
    cases hb : busOffset cfg addr width with
    | error r => rw [hb] at ha; cases ha
    | ok n => rw [hb] at ha; cases ha; cases hp
  all_goals cases ha; cases hp

/-- Everything a turn can be: silent, or the next operation performed (R177, R242). -/
theorem turn_cases (ht : h.turn cfg = .ok turn) :
    (h.script = [] ∧ turn = ⟨Pins.quiet, h, false⟩) ∨
    (∃ n ps, h.pace = (n + 1) :: ps ∧ turn = ⟨Pins.quiet, { h with pace := n :: ps }, false⟩) ∨
    (∃ ps, (h.pace = 0 :: ps ∨ h.pace = [] ∧ ps = []) ∧ HostAgent.overlaps { h with pace := ps } = false ∧
      (HostAgent.expand cfg { h with pace := ps }).act cfg = .ok turn) := by
  unfold HostAgent.turn at ht
  split at ht
  · cases ht; exact .inl ⟨‹_›, rfl⟩
  · cases ht; exact .inr (.inl ⟨_, _, ‹_›, rfl⟩)
  · unfold HostAgent.perform at ht
    split at ht
    · cases ht
    · exact .inr (.inr ⟨_, .inl ‹_›, eq_false_of_ne_true ‹_›, ht⟩)
  · rename_i hp
    unfold HostAgent.perform at ht
    split at ht
    · cases ht
    · refine .inr (.inr ⟨[], .inr ⟨hp, rfl⟩, ?_, ?_⟩) <;> rw [← hp]
      · exact eq_false_of_ne_true ‹_›
      · exact ht

theorem turn_polling (ht : h.turn cfg = .ok turn) (hp : turn.polling = true) :
    turn.pins = ⟨false, some (.read 0x1#4)⟩ ∧ turn.host.script.head? = some .poll := by
  obtain ⟨-, e⟩ | ⟨n, ps, -, e⟩ | ⟨ps, -, -, ha⟩ := turn_cases ht
  · rw [e] at hp; cases hp
  · rw [e] at hp; cases hp
  · obtain ⟨e1, e2, e3⟩ := act_polling ha hp
    exact ⟨e1, by rw [e2]; exact e3⟩

/-- Taking a poll off the script touches the script alone. -/
theorem settlePoll_block (s : State) : ∃ h, s.settlePoll = s.setHost h := by
  unfold State.settlePoll
  split
  · split
    · exact ⟨s.host, rfl⟩
    · exact ⟨_, rfl⟩
  · exact ⟨s.host, rfl⟩

/-- A silent host: the step is the sequencer's edge alone (R7, R241). -/
theorem step_silent (hs : s.host.script = []) :
    step s = .next ((s.sequencerEdge Config.platform.clkPerMs).setRdata none) := by
  have ht : s.host.turn Config.platform = .ok ⟨Pins.quiet, s.host, false⟩ := by
    unfold HostAgent.turn; simp [hs]
  simp only [step, machineEdge, ht, State.clockEdge, Pins.quiet, State.performAccess]
  rfl

/-- The turn of a host whose next operation is due: it is performed now. -/
theorem turn_due {op : HostOp} (hd : s.Due op h) :
    s.host.turn cfg = HostAgent.perform cfg { h with script := op :: h.script } := by
  obtain ⟨h1, h2, h3, h4⟩ := hd
  unfold HostAgent.turn
  rw [h1]
  obtain h2 | ⟨h2, h5⟩ := h2
  · rw [h2]; simp only; congr 1
    rw [h3, h4, ← h1]
  · rw [h2]; simp only; congr 1
    rw [h3, h4, h5, ← h2, ← h1]

/-- The step of a host whose next operation is an access on the pins (R233). -/
theorem step_access {a : Access} (hd : s.Due (.access a) h) :
    step s = ((s.sequencerEdge Config.platform.clkPerMs).setHost h |>.setRdata none).performAccess
      (busySeen Config.platform s (s.sequencerEdge Config.platform.clkPerMs)) (some a) := by
  have ht : s.host.turn Config.platform = .ok ⟨⟨false, some a⟩, h, false⟩ := by rw [turn_due hd]; rfl
  simp only [step, machineEdge, ht, State.clockEdge, sequencerEdge_setHost, Bool.false_eq_true, if_false]
  simp only [busySeen, setHost_busy]
  split <;> rename_i e <;> exact e.symm

end Sys2Proof.Machine
end

