-- ==== Sys2Proof/Laws/Invariant.lean ====
section
/-!
SUPPORT. How the parts of a step treat the machine's invariant `State.Inv`: what touches no sequencer state, an edge of the
sequencer, an accepted command, a timing write while idle, a reset.
-/

namespace Sys2Proof.Machine

variable {s t : State} {clk : Nat} {cfg : Config}

/-- The `applied` clause of the invariant, register by register. -/
theorem applied_iff (ps : List Phase) (s : State) :
    s.withIdlePulse.applyPhases ps = s ↔
      (lastOf (·.lines.mode) ps).getD s.mode = s.mode ∧ (lastOf (·.lines.sel) ps).getD s.sel = s.sel ∧
      (lastOf (·.cur) ps).getD s.cur = s.cur ∧
      pulOfLines ((lastOf (·.lines.pulC) ps).getD false) ((lastOf (·.lines.pulB) ps).getD false)
        ((lastOf (·.lines.pulA) ps).getD false) = s.pul := by
  obtain ⟨h1, h2, h3, h4⟩ := applyPhases_outputs ps s.withIdlePulse
  have z : s.withIdlePulse.pul[2] = false ∧ s.withIdlePulse.pul[1] = false ∧ s.withIdlePulse.pul[0] = false := by
    simp [State.withIdlePulse]
  rw [z.1, z.2.1, z.2.2] at h4
  constructor
  · intro e
    rw [e] at h1 h2 h3 h4
    exact ⟨h1.symm, h2.symm, h3.symm, h4.symm⟩
  · rintro ⟨e1, e2, e3, e4⟩
    apply State.ext
    · exact h1.trans e1
    · exact h2.trans e2
    · exact h4.trans e4
    all_goals first | exact h3.trans e3 | (simp; rfl)

/-- The invariant looks at the lines, `CMD`, `BUSY`, `CUR`, the timing registers and the sequencer alone. -/
theorem inv_of_frame (h : s.Inv) (e : t.mode = s.mode ∧ t.sel = s.sel ∧ t.pul = s.pul ∧ t.cmd = s.cmd ∧
    t.busy = s.busy ∧ t.cur = s.cur ∧ t.timing = s.timing ∧ t.seqPhases = s.seqPhases ∧ t.seqIndex = s.seqIndex ∧
    t.holdCnt = s.holdCnt) : t.Inv := by
  obtain ⟨e1, e2, e3, e4, e5, e6, e7, e8, e9, e10⟩ := e
  obtain ⟨h1, h2, h3, h4, h5⟩ := h
  refine ⟨?_, ?_, ?_, ?_, ?_⟩
  · rw [e1, e2, e6]; exact h1
  · rw [e3, e5, e8, e9, e10]; exact h2
  · rw [e4, e5, e7, e8]; exact h3
  · rw [e3, e5, e9, e10]; exact h4
  · rw [applied_iff, e1, e2, e3, e5, e6, e8, e9, e10, ← applied_iff]; exact h5

theorem inv_setHost (h : s.Inv) (a : HostAgent) : (s.setHost a).Inv := inv_of_frame h (by simp)

theorem inv_setRdata (h : s.Inv) (r : Option Word) : (s.setRdata r).Inv := inv_of_frame h (by simp)

theorem inv_raise_errBusy (h : s.Inv) : (s.raise .errBusy).Inv := inv_of_frame h (by simp)

theorem inv_clearFlags (h : s.Inv) (w : Word) : (s.clearFlags w).Inv := inv_of_frame h (by simp)

/-- An idle block takes new timing (R246). -/
theorem inv_setTiming (h : s.Inv) (hb : s.busy = false) (T : Timing) : (s.setTiming T).Inv :=
  ⟨h.cur_addressed, h.idle, by simp [hb], by simp [hb], by simp [hb]⟩

/-- An idle block takes a command (R121). -/
theorem inv_accept (h : s.Inv) (hb : s.busy = false) {w : Word} (ha : s.accept w = .next t) : t.Inv := by
  have hp := (h.idle hb).1
  rw [accept_eq] at ha
  cases ha
  split <;> rename_i hr
  · exact ⟨h.cur_addressed, fun e => (by cases e), fun _ => (phasesOf_reserved hr _).symm, fun _ _ => ⟨rfl, hp⟩,
      fun _ e => absurd rfl e⟩
  · exact ⟨h.cur_addressed, fun e => (by cases e), fun _ => rfl, fun _ _ => ⟨rfl, hp⟩, fun _ e => absurd rfl e⟩

theorem inv_resetBlock (s : State) : s.resetBlock.Inv :=
  ⟨fun e => (by cases e), fun _ => ⟨rfl, rfl, rfl, rfl⟩, fun e => (by cases e), fun e => (by cases e), fun e => (by cases e)⟩

/-- While a phase after the first is about to begin, `CUR` and `MODE` are what the first one wrote, if it wrote them. -/
theorem applied_first {i : Instr} {T : Timing} {k : Nat} {p : Phase} (hi : s.seqPhases = phasesOf i T)
    (ha : s.withIdlePulse.applyPhases (s.seqPhases.take (k + 1)) = s) (hp : s.seqPhases[0]? = some p) :
    p.cur.getD s.cur = s.cur ∧ p.lines.mode.getD s.mode = s.mode := by
  obtain ⟨qs, hq⟩ : ∃ qs, s.seqPhases = p :: qs := by
    cases h : s.seqPhases with
    | nil => rw [h] at hp; cases hp
    | cons q qs => rw [h] at hp; cases hp; exact ⟨qs, rfl⟩
  have ht : ∀ q ∈ qs.take k, q.lines.mode = none ∧ q.cur = none := fun q hm => by
    apply phasesOf_tail (i := i) (T := T)
    rw [← hi, hq]
    exact List.mem_of_mem_take hm
  obtain ⟨h1, -, h3, -⟩ := (applied_iff _ _).mp ha
  rw [hq, List.take_succ_cons, lastOf_head _ fun q hm => (ht q hm).1] at h1
  rw [hq, List.take_succ_cons, lastOf_head _ fun q hm => (ht q hm).2] at h3
  exact ⟨h3, h1⟩

/-- Where a phase begins, the state before it is what the phases before it made of idle pulse lines. -/
theorem applied_before (h : s.Inv) (hb : s.busy = true) :
    s.withIdlePulse.applyPhases (s.seqPhases.take (nextPhase s)) = s := by
  by_cases h0 : s.holdCnt = 0
  · obtain ⟨hi, hp⟩ := h.pending hb h0
    rw [show nextPhase s = 0 by simp [nextPhase, h0, hi], List.take_zero, applyPhases_nil]
    unfold State.withIdlePulse
    rw [← hp]
  · simpa [nextPhase, h0] using (h.applied hb h0).2

/-- One edge of the sequencer keeps the invariant (R122, R241). -/
theorem inv_sequencerEdge (h : s.Inv) (clk : Nat) : (s.sequencerEdge clk).Inv := by
  obtain ⟨-, e⟩ | ⟨hb, h1, e⟩ | ⟨p, hb, hh, hp, e⟩ | ⟨hb, hh, hp, e⟩ := sequencerEdge_cases clk s <;> rw [e]
  · exact h
  · refine ⟨h.cur_addressed, fun e => (by rw [setSequencer_busy, hb] at e; cases e), h.program,
      fun _ e => absurd e (by simp; omega), fun _ _ => ?_⟩
    have ha := h.applied hb (by omega)
    refine ⟨ha.1, ?_⟩
    rw [applied_iff] at ha ⊢
    exact ha.2
  · have hprog := h.program hb
    have hpos := holdCycles_pos clk p.hold
    refine ⟨?_, fun e => (by rw [setSequencer_busy, applyPhase_busy, hb] at e; cases e), h.program,
      fun _ e => absurd e (by simp; omega), fun _ _ => ⟨(List.getElem?_eq_some_iff.mp hp).1, ?_⟩⟩
    · -- a valid `CUR` names the addressed slot
      simp only [setSequencer_cur, setSequencer_mode, setSequencer_sel, applyPhase_cur, applyPhase_mode, applyPhase_sel]
      cases hk : nextPhase s with
      | zero =>
        rw [hk, hprog] at hp
        obtain ⟨-, -, -, e4⟩ | ⟨slot, pat, -, rfl⟩ | ⟨-, e2, e3⟩ := phasesOf_head hp
        · rw [e4]; intro e; cases e
        · intro _; exact ⟨rfl, rfl⟩
        · rw [e2, e3]; exact h.cur_addressed
      | succ k =>
        have hm := mem_tail_of_getElem? (hk ▸ hp)
        rw [hprog] at hm
        obtain ⟨f1, f2⟩ := phasesOf_tail hm
        rw [f1, f2]
        by_cases hs : decode s.cmd = .sweep
        · have hb' := applied_before h hb
          rw [hk] at hb'
          obtain ⟨e1, -⟩ := applied_first hprog hb' (p := sweepPhase s.timing 0#3 0) (by rw [hprog, hs]; rfl)
          intro e
          rw [Option.getD_none, ← e1] at e
          cases e
        · rw [phasesOf_tail_sel hs hm]; exact h.cur_addressed
    · -- the phases so far, this one included
      have ha := applied_before h hb
      simp only [setSequencer_seqPhases, setSequencer_seqIndex, applyPhase_seqPhases]
      rw [List.take_add_one, hp]
      rw [applied_iff] at ha ⊢
      obtain ⟨a1, a2, a3, a4⟩ := ha
      simp only [Option.toList_some, lastOf_concat, setSequencer_mode, setSequencer_sel, setSequencer_cur,
        setSequencer_pul, applyPhase_mode, applyPhase_sel, applyPhase_cur, applyPhase_pul, getD_or]
      refine ⟨?_, ?_, ?_, ?_⟩
      · cases p.lines.mode with
        | none => exact a1
        | some m => rfl
      · cases p.lines.sel with
        | none => exact a2
        | some m => rfl
      · cases p.cur with
        | none => exact a3
        | some m => rfl
      · rw [← a4]; simp
  · refine ⟨h.cur_addressed, fun _ => ⟨?_, rfl, rfl, rfl⟩, fun e => (by cases e), fun e => (by cases e), fun e => (by cases e)⟩
    have ha := applied_before h hb
    have hn : s.seqPhases.length ≤ nextPhase s := by simpa using hp
    rw [List.take_of_length_le hn, h.program hb] at ha
    have hz := applyPhases_pul (s := s.withIdlePulse) (decode s.cmd) s.timing rfl
    rw [ha] at hz
    exact hz

end Sys2Proof.Machine
end

