-- ==== Sys2Proof/Laws/PerInstr.lean ====
section
/-!
SUPPORT. Facts about every command as syntax, one lemma per constructor.
-/

namespace Sys2Proof.Laws.EncodesInItsRow

/-- A well-formed command's word lies in the command's own row of the opcode map (R84). -/
def Statement (i : Instr) : Prop := i.wf = true → i.row.matches (encode i) = true

theorem nop : Statement .nop := fun _ => by decide

theorem sweep : Statement .sweep := fun _ => by decide

theorem addr (slot : Slot) : Statement (.addr slot) := fun _ => by revert slot; decide

theorem play (len : BitVec 3) (slot : Slot) (pat : Pattern) : Statement (.play len slot pat) := fun _ => by
  simp only [OpcodeRow.matches, Instr.row, encode, Word.inRow, beq_iff_eq]
  apply BitVec.eq_of_getLsbD_eq
  intro j hj
  rw [BitVec.getLsbD_and]
  by_cases h : j < 12
  · have : ∀ j : Nat, j < 12 → (0xF000#16).getLsbD j = false ∧ (0x3000#16).getLsbD j = false := by decide
    simp [(this j h).1, (this j h).2]
  · have e : (0x3#4 ++ len ++ slot ++ pat : Word).getLsbD j = (0x3#4).getLsbD (j - 12) := by
      simp only [BitVec.getLsbD_append]
      rw [if_neg (by omega), if_neg (by omega), if_neg (by omega)]
      congr 1
    rw [e]
    have : ∀ j : Nat, j < 16 → 12 ≤ j →
        ((0x3#4).getLsbD (j - 12) && (0xF000#16).getLsbD j) = (0x3000#16).getLsbD j := by decide
    exact this j hj (by omega)

theorem waitSettle : Statement .waitSettle := fun _ => by decide

theorem waitChar : Statement .waitChar := fun _ => by decide

theorem illegalWait (w : Word) : Statement (.illegalWait w) := fun h => h

theorem illegalOp5 (w : Word) : Statement (.illegalOp5 w) := fun h => h

theorem illegalOp67 (w : Word) : Statement (.illegalOp67 w) := fun h => h

theorem illegalOp8F (w : Word) : Statement (.illegalOp8F w) := fun h => h

end Sys2Proof.Laws.EncodesInItsRow
end

