-- ==== Sys2Proof/Laws/Run.lean ====
section
/-!
SUPPORT. Runs of the machine under a silent host: a hold counts down, a phase begins where the one before ends, and a
phase list is performed to its end (R122, R241).
-/

namespace Sys2Proof.Machine

variable {s t u : State} {m n : Nat}

/-- `n` steps of the machine take `s` to `t`. -/
abbrev Runs (n : Nat) (s t : State) : Prop := Sys2Proof.core.run n s = .next t

theorem runs_zero (s : State) : Runs 0 s s := rfl

/-- One step and then the rest, on any machine. -/
theorem run_of_step {M : Host.Core} {a b : M.State} (k : Nat) (h : M.step a = .next b) : M.run (k + 1) a = M.run k b := by
  simp only [Host.Core.run, h]

/-- The first step of a longer run, on any machine. -/
theorem step_of_run {M : Host.Core} {a c : M.State} {k : Nat} (h : M.run (k + 1) a = .next c) :
    ∃ b, M.step a = .next b ∧ M.run k b = .next c := by
  simp only [Host.Core.run] at h
  split at h
  · exact ⟨_, ‹_›, h⟩
  · cases h
  · cases h

theorem runs_succ (h : step s = .next t) (hr : Runs n t u) : Runs (n + 1) s u :=
  (run_of_step (M := Sys2Proof.core) n h).trans hr

theorem runs_trans (h : Runs m s t) (hr : Runs n t u) : Runs (m + n) s u := by
  induction m generalizing s with
  | zero => cases h; rwa [Nat.zero_add]
  | succ m ih =>
    obtain ⟨b, hb, h'⟩ := step_of_run h
    rw [Nat.add_right_comm]
    exact runs_succ hb (ih h')

theorem runs_one (h : step s = .next t) : Runs 1 s t := runs_succ h rfl

/-- While its hold runs, a phase only counts cycles (R11, R241). -/
theorem runs_hold (hs : s.host.script = []) (hb : s.busy = true) (hr : s.busRdata = none) {j : Nat}
    (hj : j < s.holdCnt) : Runs j s (s.setSequencer s.seqIndex (s.holdCnt - j)) := by
  induction j with
  | zero => exact rfl
  | succ j ih =>
    refine runs_trans (ih (by omega)) (runs_one ?_)
    have e : s.setRdata none = s := by cases s; cases hr; rfl
    rw [step_silent (s := s.setSequencer s.seqIndex (s.holdCnt - j)) hs,
      sequencerEdge_holding (s := s.setSequencer s.seqIndex (s.holdCnt - j)) hb (by simp; omega)]
    exact congrArg Host.Outcome.next (congrArg (State.setSequencer s.seqIndex (s.holdCnt - j - 1)) e)

/-- The state in which phase `k` of `ps`, accepted in `s`, begins: the phases up to it applied (R122, R241). -/
def inPhase (clk : Nat) (ps : List Phase) (k : Nat) (hold : Word) (s : State) : State :=
  (((s.applyPhases (ps.take (k + 1))).startCommand ps).setSequencer k (holdCycles clk hold)).setRdata none

theorem applyPhases_startCommand (qs ps : List Phase) (s : State) :
    (s.startCommand qs).applyPhases ps = (s.applyPhases ps).startCommand qs := by
  induction ps generalizing s with
  | nil => rfl
  | cons p ps ih => exact ih (s.applyPhase p)

theorem applyPhases_take_succ {ps : List Phase} {k : Nat} {p : Phase} (h : ps[k]? = some p) (s : State) :
    s.applyPhases (ps.take (k + 1)) = (s.applyPhases (ps.take k)).applyPhase p := by
  rw [List.take_add_one, h, applyPhases_append]; rfl

/-- Under a silent host phase `k` begins one edge and the cycles of the phases before it after acceptance (R241). -/
theorem runs_to_phase (hs : s.host.script = []) {ps : List Phase} {k : Nat} {p : Phase} (hp : ps[k]? = some p) :
    Runs (1 + cyclesOf Config.platform.clkPerMs (ps.take k)) (s.startCommand ps)
      (inPhase Config.platform.clkPerMs ps k p.hold s) := by
  induction k generalizing p with
  | zero =>
    refine runs_one ?_
    rw [step_silent (by simpa using hs), sequencerEdge_pending rfl rfl, enterPhase_some (p := p) (by simpa using hp)]
    rw [inPhase, applyPhases_take_succ hp]
    rfl
  | succ k ih =>
    obtain ⟨q, hq⟩ : ∃ q, ps[k]? = some q := by
      have := (List.getElem?_eq_some_iff.mp hp).1
      exact ⟨_, List.getElem?_eq_getElem (by omega)⟩
    have hc : cyclesOf Config.platform.clkPerMs (ps.take (k + 1)) =
        cyclesOf Config.platform.clkPerMs (ps.take k) + holdCycles Config.platform.clkPerMs q.hold := by
      simp [cyclesOf, List.take_add_one, hq]
    have hpos := holdCycles_pos Config.platform.clkPerMs q.hold
    have hsil : (inPhase Config.platform.clkPerMs ps k q.hold s).host.script = [] := by simpa [inPhase] using hs
    have h1 := runs_hold (j := holdCycles Config.platform.clkPerMs q.hold - 1) hsil rfl rfl (by simp [inPhase]; omega)
    have h2 := runs_trans (ih hq) h1
    rw [hc, show ∀ a b : Nat, 0 < b → 1 + (a + b) = (1 + a + (b - 1)) + 1 by omega]
    · refine runs_trans h2 (runs_one ?_)
      rw [step_silent (by simpa [inPhase] using hs), sequencerEdge_ending rfl (by simp [inPhase]; omega),
        enterPhase_some (p := p) (by simpa [inPhase] using hp)]
      rw [inPhase, inPhase, applyPhases_take_succ hp]
      rfl
    · exact hpos

/-- Under a silent host a phase list is performed to its end, and then the sequencer is idle (R122, R241). -/
theorem runs_to_end (hs : s.host.script = []) (ps : List Phase) :
    Runs (1 + cyclesOf Config.platform.clkPerMs ps) (s.startCommand ps)
      ((s.applyPhases ps).finishCommand.setRdata none) := by
  rcases List.eq_nil_or_concat ps with rfl | ⟨qs, q, rfl⟩
  · refine runs_one ?_
    rw [step_silent (by simpa using hs), sequencerEdge_pending rfl rfl, enterPhase_none (by simp)]
    rfl
  · have hq : (qs.concat q)[qs.length]? = some q := by simp
    have hpos := holdCycles_pos Config.platform.clkPerMs q.hold
    have hsil : (inPhase Config.platform.clkPerMs (qs.concat q) qs.length q.hold s).host.script = [] := by
      simpa [inPhase] using hs
    have h1 := runs_hold (j := holdCycles Config.platform.clkPerMs q.hold - 1) hsil rfl rfl (by simp [inPhase]; omega)
    have h2 := runs_trans (runs_to_phase hs hq) h1
    have hc : 1 + cyclesOf Config.platform.clkPerMs (qs.concat q) =
        1 + cyclesOf Config.platform.clkPerMs ((qs.concat q).take qs.length) +
          (holdCycles Config.platform.clkPerMs q.hold - 1) + 1 := by
      simp [cyclesOf]; omega
    rw [hc]
    refine runs_trans h2 (runs_one ?_)
    rw [step_silent (by simpa [inPhase] using hs), sequencerEdge_ending rfl (by simp [inPhase]; omega),
      enterPhase_none (by simp [inPhase])]
    rw [inPhase, List.take_of_length_le (by simp)]
    rfl

end Sys2Proof.Machine
end

