-- ==== Sys2Proof/Tests/Slice0.lean ====
section
/-!
SUPPORT. The model's own tests: ill-formed commands that the check refuses, a written-out word for every command, one-step
tests whose results come from 95_test_vectors.md, and a witness for the hypotheses of every statement.
-/

namespace Sys2Proof.Tests

open Sys2Proof.Machine Sys2Proof.Statements

/-! ## Well-formedness: one ill-formed term for each check (R84) -/

theorem test_wf_refuses_wait_settle_word : (Instr.illegalWait 0x4001#16).wf = false := by decide
theorem test_wf_refuses_word_of_op6 : (Instr.illegalOp5 0x6000#16).wf = false := by decide
theorem test_wf_refuses_word_of_op8 : (Instr.illegalOp67 0x8000#16).wf = false := by decide
theorem test_wf_refuses_word_of_op7 : (Instr.illegalOp8F 0x7FFF#16).wf = false := by decide

/-! ## Decoding: words written out from the rows of R84 -/

theorem test_decode_nop : decodeTableWord 16 0b0000111111111111 = some .nop := by decide
theorem test_decode_sweep : decodeTableWord 16 0b0001111111111111 = some .sweep := by decide
theorem test_decode_addr : decodeTableWord 16 0b0010111110111111 = some (.addr 6#3) := by decide
theorem test_decode_play : decodeTableWord 16 0b0011110101100010 = some (.play 6#3 5#3 0x22#6) := by decide
theorem test_decode_play_malformed : decodeTableWord 16 0b0011101000000001 = some (.play 5#3 0#3 1#6) := by decide
theorem test_decode_wait_settle : decodeTableWord 16 0b0100111111111100 = some .waitSettle := by decide
theorem test_decode_wait_char : decodeTableWord 16 0b0100111111111101 = some .waitChar := by decide
theorem test_decode_illegal_wait : decodeTableWord 16 0b0100000000000010 = some (.illegalWait 0x4002#16) := by decide
theorem test_decode_illegal_op5 : decodeTableWord 16 0b0101000000000000 = some (.illegalOp5 0x5000#16) := by decide
theorem test_decode_illegal_op67 : decodeTableWord 16 0b0111000000000000 = some (.illegalOp67 0x7000#16) := by decide
theorem test_decode_illegal_op8F : decodeTableWord 16 0b1111111111111111 = some (.illegalOp8F 0xFFFF#16) := by decide
theorem test_decode_longer_than_a_word : decodeTableWord 32 0x1000 = none := by decide

/-! ## Small states -/

/-- A platform with `CLK_PER_MS = 1` and the default `PREFIX_PATTERN` (V15, G2). -/
def bench : Config :=
  { clkPerMsPred := 0, bamBlock := 4, prefixPattern := 0x3C#6, punctRaw := fun _ => 0#6,
    lateWriteSeesBusy := true, mirrorOther := fun _ => false }

/-- A host that is about to do these operations, without pause. -/
def hosted (ops : List HostOp) : HostAgent := { script := ops, pace := [], request := none, diagnostics := [] }

/-- The reset state with such a host. -/
def fresh (ops : List HostOp) : State := State.reset.setHost (hosted ops)

/-- After `ADDR s`: address mode on slot `s`, idle (V5). -/
def onSlot (s : Slot) : State := { State.reset with mode := .address, sel := s, cur := ⟨s, true, 0#6⟩ }

/-- `PLAY 0, 0x01` from `ADDR 0`, one cycle before its A write ends: `LINES = 0x21` (V6, V15). -/
def midPlay : State :=
  { onSlot 0#3 with
    cmd := 0x3C01#16, busy := true, pul := 0b001#3, cur := ⟨0#3, true, 1#6⟩
    seqPhases := phasesOf (.play 6#3 0#3 1#6) Timing.reset, seqIndex := 3, holdCnt := 1 }

/-- `ADDR 3` in its one zero-hold cycle: the next edge completes it (V15). -/
def lastCycle : State :=
  { onSlot 3#3 with cmd := 0x20C0#16, busy := true, seqPhases := phasesOf (.addr 3#3) Timing.reset, holdCnt := 1 }

/-- A command that has just been accepted in `s`. -/
def pending (w : Word) (s : State) : State :=
  { s with cmd := w, busy := true, seqPhases := phasesOf (decode w) s.timing }

/-- What is to be seen of an outcome: `LINES`, `CUR`, `STATUS` and `CMD`. -/
def seen : Host.Outcome State Fault Refusal → Option (Word × Word × Word × Word)
  | .next s => some (s.linesWord, s.cur.word, s.statusWord, s.cmd)
  | .fault _ => none
  | .refused _ => none

/-- What is to be seen after the block's edge on the bench with nothing on its pins. -/
def seenNext (s : State) : Option (Word × Word × Word × Word) := seen (s.clockEdge bench Pins.quiet)

/-- `LINES` and time in a command's millisecond trace. -/
def levels (s : State) (w : Word) : List (Nat × Word × Nat) :=
  (commandTrace s (decode w)).map fun e => (e.atMs, e.lines, e.holdMs)

/-! ## One command each (95_test_vectors.md) -/

/-- V3. -/
theorem test_nop_completes : seenNext (pending 0x0FFF#16 (onSlot 3#3)) = some (0x0D#16, 0x000B#16, 0x0002#16, 0x0FFF#16) := by
  decide
/-- V4: the first step from `ADDR 5` changes mode, select and pulse lines at once, and clears `CUR`. -/
theorem test_sweep_first_step : seenNext (pending 0x1000#16 (onSlot 5#3)) = some (0x22#16, 0#16, 0x0001#16, 0x1000#16) := by
  decide
/-- V4. -/
theorem test_sweep_last_steps :
    ((levels State.reset 0x1FFF#16).drop 46) = [(46, 0xBE#16, 1), (47, 0xDE#16, 1), (48, 0x1E#16, 0)] := by decide
/-- V5, third row. -/
theorem test_addr_clears_pattern :
    seenNext (pending 0x21C0#16 { onSlot 2#3 with cur := ⟨2#3, true, 9#6⟩ }) =
      some (0x1D#16, 0x000F#16, 0x0003#16, 0x21C0#16) := by decide
/-- V6, p = 4: C first, A last. -/
theorem test_play_position_4 :
    levels (onSlot 0#3) 0x3C10#16 =
      [(0, 0x01#16, 0), (0, 0x81#16, 5), (5, 0x81#16, 5), (10, 0xA1#16, 5), (15, 0x01#16, 1)] := by decide
/-- V8. -/
theorem test_play_malformed :
    seenNext (pending 0x3A01#16 (onSlot 3#3)) = some (0x0D#16, 0x000B#16, 0x0002#16, 0x3A01#16) := by decide
/-- V9. -/
theorem test_wait_settle : levels State.reset 0x4000#16 = [(0, 0x0002#16, 200)] := by decide
/-- V9. -/
theorem test_wait_char : levels State.reset 0x4FFD#16 = [(0, 0x0002#16, 1500)] := by decide
/-- V10: `STATUS` reads 0x0008 once the command completes, and `BUSY` with it at acceptance. -/
theorem test_illegal_wait : seen (State.reset.accept 0x4003#16) = some (0x0002#16, 0#16, 0x0009#16, 0x4003#16) := by decide
/-- V10. -/
theorem test_illegal_op5 : seen (State.reset.accept 0x5000#16) = some (0x0002#16, 0#16, 0x0009#16, 0x5000#16) := by decide
/-- V10. -/
theorem test_illegal_op67 : seen (State.reset.accept 0x6ABC#16) = some (0x0002#16, 0#16, 0x0009#16, 0x6ABC#16) := by decide
/-- V10, after `ADDR 2`. -/
theorem test_illegal_op8F : seen ((onSlot 2#3).accept 0x9000#16) = some (0x09#16, 0x000A#16, 0x000B#16, 0x9000#16) := by decide

/-! ## Registers, the guard, reset, the host (95_test_vectors.md) -/

/-- V12. -/
theorem test_status_clears_one_flag :
    seen (({ State.reset with errBusy := true, errIllegal := true } : State).clockEdge bench ⟨false, some (.write 0x1#4 4#16)⟩) =
      some (0x0002#16, 0#16, 0x0008#16, 0#16) := by decide
/-- V15: `PUL_A` falls with the other two at edge 17. -/
theorem test_dot_reset : seenNext midPlay = some (0x01#16, 0x0108#16, 0x0003#16, 0x3C01#16) := by decide
/-- P4: a write during a `PLAY` is dropped. -/
theorem test_busy_guard :
    seen (midPlay.clockEdge bench ⟨false, some (.write 0x0#4 0x3C43#16)⟩) =
      some (0x01#16, 0x0108#16, 0x0007#16, 0x3C01#16) := by decide
/-- V16: reset wins over the write and cuts the pulse short. -/
theorem test_reset_mid_pulse :
    seen (midPlay.clockEdge bench ⟨true, some (.write 0x0#4 0x1000#16)⟩) = some (0x0002#16, 0#16, 0#16, 0#16) := by decide
/-- V13: an access at an odd address is refused. -/
theorem test_odd_address : busOffset bench 129 2 = .error .misaligned := by decide
/-- E4 (G1, G2). -/
theorem test_display_a1b :
    displayWords bench (some [0x61#8, 0x31#8, 0x62#8]) =
      [0x1000#16, 0x3C01#16, 0x4001#16, 0x3C7C#16, 0x4000#16, 0x3C81#16, 0x4001#16, 0x3CC3#16, 0x4001#16] := by decide
/-- V17: an unmapped character is addressed and not played (G1). -/
theorem test_display_unmapped :
    displayWords bench (some [0x78#8, 0x23#8, 0x79#8]) =
      [0x1000#16, 0x3C2D#16, 0x4001#16, 0x2040#16, 0x4001#16, 0x3CBD#16, 0x4001#16] := by decide
/-- P2, step 2, with the test-only length operand (R88). -/
theorem test_assemble_len :
    assembleText bench ['P', 'L', 'A', 'Y', ' ', '2', ',', '9', ',', 'l', 'e', 'n', '=', '5', ';'] = some [0x3A89#16] := by
  decide

/-- P3, step 4: a dot set, braces at codes 123 and 125 (R88). -/
theorem test_assemble_dot_set :
    assembleText bench ['P', 'L', 'A', 'Y', ' ', '5', ',', Char.ofNat 123, '2', ',', '6', Char.ofNat 125] =
      some [0x3D62#16] := by decide

/-! ## Witnesses: states and operands that meet the hypotheses of each statement -/

theorem witness_DecodeOfEncodeIsIdentity :
    (Instr.illegalWait 0x4FFF#16).wf = true ∧ (Instr.illegalOp8F 0x8000#16).wf = true ∧
    (Instr.illegalOp67 0x7FFF#16).wf = true ∧ (Instr.play 7#3 7#3 0x3F#6).wf = true := by decide

theorem witness_OpcodeMapPartitionsAllWords :
    decode 0x2FFF#16 = .addr 7#3 ∧ decode 0x3FFF#16 = .play 7#3 7#3 0x3F#6 := by decide

theorem witness_IgnoredBitsHaveNoEffect :
    (0x2FFF#16 &&& usedBits 0x2FFF#16) = (0x21C0#16 &&& usedBits 0x2FFF#16) ∧
    (0x3BFF#16 &&& usedBits 0x3BFF#16) = (0x3A00#16 &&& usedBits 0x3BFF#16) ∧
    (0x4FFF#16 &&& usedBits 0x4FFF#16) = (0x4002#16 &&& usedBits 0x4FFF#16) ∧
    (0xFFFF#16 &&& usedBits 0xFFFF#16) = (0x8000#16 &&& usedBits 0xFFFF#16) := by decide

theorem witness_Silent : Silent (onSlot 3#3) := rfl

theorem witness_NopCompletesAtOnce :
    (0x0FFF#16).extractLsb' 12 4 = 0x0#4 ∧ (0x0000#16).extractLsb' 12 4 = 0x0#4 ∧ Silent State.reset := by decide

theorem witness_SweepStepsThroughAllSlotsAndPositions :
    (0x1FFF#16).extractLsb' 12 4 = 0x1#4 ∧ (7 < 8) ∧ Silent (onSlot 5#3) := by decide

theorem witness_AddrAddressesItsSlot : (0x2FFF#16).extractLsb' 12 4 = 0x2#4 ∧ Silent (onSlot 7#3) := by decide

/-- The first step of a `SWEEP` from reset, held (V4). -/
def midSweep : State :=
  { State.reset with
    cmd := 0x1000#16, busy := true, pul := 0b001#3
    seqPhases := phasesOf .sweep Timing.reset, seqIndex := 0, holdCnt := 1 }

theorem witness_PlayPulsesItsActiveDots :
    (∃ w, decode w = .play 6#3 3#3 9#6) ∧ (midSweep.Inv ∧ midSweep.mode = .sweep ∧ midSweep.pul ≠ 0#3) :=
  ⟨⟨0x3CC9#16, by decide⟩,
    ⟨fun e => (by cases e), fun e => (by cases e), fun _ => rfl, fun _ e => (by cases e), fun _ _ => by decide⟩, rfl,
    by decide⟩

theorem witness_PlayPulsesItsActiveDots_operands :
    (0x3FFF#16).extractLsb' 12 4 = 0x3#4 ∧ Silent State.reset ∧ 0#3 ≠ 6#3 ∧ activeDots 0x21#6 = [0, 5] ∧ activeDots 0#6 = [] := by decide

theorem witness_MalformedPlayIsSilent :
    (0x3A01#16).extractLsb' 12 4 = 0x3#4 ∧ (0x3A01#16).extractLsb' 9 3 ≠ 6#3 ∧ 5#3 ≠ 6#3 ∧ 7#3 ≠ 6#3 ∧
    Silent (onSlot 3#3) := by decide

theorem witness_WaitHoldsTheLines :
    (0x4FFC#16).extractLsb' 12 4 = 0x4#4 ∧ (0x4FFC#16).extractLsb' 0 2 = 0#2 ∧
    (0x4FFD#16).extractLsb' 12 4 = 0x4#4 ∧ (0x4FFD#16).extractLsb' 0 2 = 1#2 ∧ Silent (onSlot 1#3) ∧
    (Instr.waitSettle = .waitSettle ∧ 200#16 = (onSlot 1#3).timing.prefixSettle) ∧
    (Instr.waitChar = .waitChar ∧ 1500#16 = (onSlot 1#3).timing.charHold) := by decide

theorem witness_ReservedWordRaisesErrIllegal :
    isReserved (decode 0x4002#16) = true ∧ isReserved (decode 0x5000#16) = true ∧ isReserved (decode 0x7FFF#16) = true ∧
    isReserved (decode 0xFFFF#16) = true ∧ isReserved (decode 0x4001#16) = false ∧ Silent State.reset := by decide

theorem witness_AcceptanceFrame : (∃ t, exec (.play 6#3 1#3 3#6) (onSlot 3#3) = .next t) ∧ (0x3#4 : Offset) ≠ 0x1#4 :=
  ⟨⟨_, rfl⟩, by decide⟩

theorem witness_CommandRunsToCompletion : Silent (onSlot 3#3) := rfl

theorem witness_CycleMapping :
    Silent State.reset ∧ (∃ u, exec (.play 6#3 0#3 1#6) State.reset = .next u) ∧
    (∃ p, (phasesOf (.play 6#3 0#3 1#6) State.reset.timing)[4]? = some p ∧ 0 < cycles p.hold) ∧
    (∃ p, (phasesOf (.play 6#3 0#3 1#6) State.reset.timing)[0]? = some p ∧ 0 < cycles p.hold) :=
  ⟨rfl, ⟨_, rfl⟩, ⟨_, rfl, by unfold cycles; omega⟩, ⟨_, rfl, by unfold cycles; omega⟩⟩

theorem witness_EmptyPlayIsAddr :
    (∃ t, (onSlot 3#3).accept (encode (.play 6#3 3#3 0#6)) = .next t) ∧ ∃ u, (onSlot 3#3).accept (encode (.addr 3#3)) = .next u :=
  ⟨⟨_, rfl⟩, ⟨_, rfl⟩⟩

theorem witness_DotPulseLevels : (onSlot 0#3).pul = 0#3 := rfl

/-- An operation at the head of a host's script is due. -/
theorem due_fresh (op : HostOp) (rest : List HostOp) (s : State) :
    State.Due (s.setHost (hosted (op :: rest))) op (hosted rest) := ⟨rfl, .inr ⟨rfl, rfl⟩, rfl, rfl⟩

theorem witness_StatusReadsAndClears :
    ∃ h, State.Due (midPlay.setHost (hosted [.access (.write 0x1#4 0x000C#16)])) (.access (.write 0x1#4 0x000C#16)) h :=
  ⟨_, due_fresh _ [] _⟩

theorem witness_LinesReadsTheLevels :
    ∃ h, State.Due (midPlay.setHost (hosted [.access (.write 0x2#4 0xFF#16)])) (.access (.write 0x2#4 0xFF#16)) h :=
  ⟨_, due_fresh _ [] _⟩

theorem witness_LinesValueInEachMode :
    ((onSlot 7#3).mode = .address ∧ (onSlot 7#3).sel = selCode 7#3 ∧ (onSlot 7#3).pul = 0#3) ∧
    midSweep.mode = .sweep ∧ midSweep.sel = selCode 0#3 ∧ midSweep.pul = pulseCode 0 := by decide

theorem witness_CurReadsItsFields :
    ∃ h, State.Due (midPlay.setHost (hosted [.access (.write 0x3#4 0xFF#16)])) (.access (.write 0x3#4 0xFF#16)) h :=
  ⟨_, due_fresh _ [] _⟩

theorem witness_ReservedOffsetsAreInert :
    (0xA#4 : Offset) ≤ 0xA#4 ∧ (0xA#4 : Offset) ≤ 0xF#4 ∧
    ∃ h, State.Due (midPlay.setHost (hosted [.access (.write 0xA#4 1#16)])) (.access (.write 0xA#4 1#16)) h :=
  ⟨by decide, by decide, _, due_fresh _ [] _⟩

/-- `midPlay` goes on at the next edge, whatever the platform. -/
theorem midPlay_goes_on (h : HostAgent) : ((midPlay.setHost h).sequencerEdge clk).busy = true := rfl

theorem witness_TimingRegistersStoreWhileIdle :
    ((0x4#4 : Offset) ≤ 0x4#4 ∧ (0x4#4 : Offset) ≤ 0x9#4) ∧ ((0x4#4 : Offset) ≤ 0x9#4 ∧ (0x9#4 : Offset) ≤ 0x9#4) ∧
    (∃ h, (onSlot 3#3).busy = false ∧
      State.Due ((onSlot 3#3).setHost (hosted [.access (.write 0x9#4 7#16)])) (.access (.write 0x9#4 7#16)) h) ∧
    ∃ h, (State.sequencerEdge clk (midPlay.setHost (hosted [.access (.write 0x4#4 7#16)]))).busy = true ∧
      State.Due (midPlay.setHost (hosted [.access (.write 0x4#4 7#16)])) (.access (.write 0x4#4 7#16)) h :=
  ⟨by decide, by decide, ⟨_, rfl, due_fresh _ [] _⟩, ⟨_, midPlay_goes_on _, due_fresh _ [] _⟩⟩

theorem witness_BusyGuardDropsWrites :
    (∃ h, (State.sequencerEdge clk (midPlay.setHost (hosted [.access (.write 0x0#4 7#16)]))).busy = true ∧
      State.Due (midPlay.setHost (hosted [.access (.write 0x0#4 7#16)])) (.access (.write 0x0#4 7#16)) h) ∧
    ∃ h t, ¬((0x1#4 : Offset) = 0x0#4 ∨ (0x4#4 : Offset) ≤ 0x1#4 ∧ (0x1#4 : Offset) ≤ 0x9#4) ∧
      State.Due (({ State.reset with errBusy := true } : State).setHost (hosted [.access (.write 0x1#4 8#16)]))
        (.access (.write 0x1#4 8#16)) h ∧
      step (({ State.reset with errBusy := true } : State).setHost (hosted [.access (.write 0x1#4 8#16)])) = .next t ∧
      t.errBusy = true :=
  ⟨⟨_, midPlay_goes_on _, due_fresh _ [] _⟩, ⟨_, _, by decide, due_fresh _ [] _, rfl, rfl⟩⟩

theorem witness_WriteAtCompletingEdgeIsDroppedOrAccepted :
    ∃ h, (lastCycle.setHost (hosted [.access (.write 0x0#4 0x1000#16)])).busy = true ∧
      (State.sequencerEdge clk (lastCycle.setHost (hosted [.access (.write 0x0#4 0x1000#16)]))).busy = false ∧
      State.Due (lastCycle.setHost (hosted [.access (.write 0x0#4 0x1000#16)])) (.access (.write 0x0#4 0x1000#16)) h :=
  ⟨_, rfl, rfl, due_fresh _ [] _⟩

theorem witness_WriteAtCompletingEdgeIsDroppedOrAccepted_timing :
    ∃ h, (lastCycle.setHost (hosted [.access (.write 0x9#4 7#16)])).busy = true ∧
      (State.sequencerEdge clk (lastCycle.setHost (hosted [.access (.write 0x9#4 7#16)]))).busy = false ∧
      State.Due (lastCycle.setHost (hosted [.access (.write 0x9#4 7#16)])) (.access (.write 0x9#4 7#16)) h ∧
      (0x4#4 : Offset) ≤ 0x9#4 ∧ (0x9#4 : Offset) ≤ 0x9#4 ∧ (0x4#4 : Offset) ≤ 0x4#4 ∧ (0x0#4 : Offset) ≠ 0x9#4 :=
  ⟨_, rfl, rfl, due_fresh _ [] _, by decide⟩

theorem witness_ReadsHaveNoSideEffect :
    ∃ h, State.Due (midPlay.setHost (hosted [.access (.read 0x2#4)])) (.access (.read 0x2#4)) h := ⟨_, due_fresh _ [] _⟩

theorem witness_StepRunsTheDecodedCommand :
    ∃ h, ((onSlot 3#3).setHost (hosted [.access (.write 0x0#4 0x3C01#16)])).busy = false ∧
      State.Due ((onSlot 3#3).setHost (hosted [.access (.write 0x0#4 0x3C01#16)])) (.access (.write 0x0#4 0x3C01#16)) h :=
  ⟨_, rfl, due_fresh _ [] _⟩

theorem witness_StepRunsTheDecodedCommand_accept : ∃ t, (onSlot 3#3).accept 0x0FFF#16 = .next t := ⟨_, rfl⟩

theorem witness_BusAccessesReachTheirOffsets :
    (∃ h, State.Due (fresh [.memRead (Config.platform.bamBase + 2 * (0xF#4 : Offset).toNat) 2])
      (.memRead (Config.platform.bamBase + 2 * (0xF#4 : Offset).toNat) 2) h) ∧
    (∃ h, State.Due (fresh [.memWrite (Config.platform.bamBase + 2 * (0x0#4 : Offset).toNat) 2 0x1000#16])
      (.memWrite (Config.platform.bamBase + 2 * (0x0#4 : Offset).toNat) 2 0x1000#16) h) ∧
    (∃ h, State.Due (fresh [.memRead Config.platform.bamBase 1]) (.memRead Config.platform.bamBase 1) h ∧ 1 ≠ 2) ∧
    (∃ h, State.Due (fresh [.memRead (Config.platform.bamBase + 1) 2]) (.memRead (Config.platform.bamBase + 1) 2) h ∧
      (Config.platform.bamBase + 1) % 2 = 1) ∧
    ∃ h, State.Due (fresh [.memWrite (Config.platform.bamBase + 32) 2 0#16])
      (.memWrite (Config.platform.bamBase + 32) 2 0#16) h ∧ (Config.platform.bamBase + 32) % 2 = 0 ∧
      Config.platform.bamBase + 32 ≤ Config.platform.bamBase + 32 :=
  ⟨⟨_, due_fresh _ [] _⟩, ⟨_, due_fresh _ [] _⟩, ⟨_, due_fresh _ [] _, by decide⟩,
    ⟨_, due_fresh _ [] _, by unfold Config.bamBase; omega⟩,
    ⟨_, due_fresh _ [] _, by unfold Config.bamBase; omega, Nat.le_refl _⟩⟩

theorem witness_ResetWins :
    (∃ h, State.Due (midPlay.setHost (hosted [.reset none])) (.reset none) h) ∧
    ∃ h, State.Due (midPlay.setHost (hosted [.reset (some (.write 0x0#4 0x1000#16))]))
      (.reset (some (.write 0x0#4 0x1000#16))) h := ⟨⟨_, due_fresh _ [] _⟩, ⟨_, due_fresh _ [] _⟩⟩

/-- In the middle of a pulse the invariant holds. -/
theorem midPlay_inv : midPlay.Inv :=
  ⟨fun _ => ⟨rfl, rfl⟩, fun e => (by cases e), fun _ => rfl, fun _ e => (by cases e), fun _ _ => by decide⟩

/-- After `ADDR` the invariant holds. -/
theorem onSlot_inv (slot : Slot) (h : HostAgent) : ((onSlot slot).setHost h).Inv :=
  ⟨fun _ => ⟨rfl, rfl⟩, fun _ => ⟨rfl, rfl, rfl, rfl⟩, fun e => (by cases e), fun e => (by cases e), fun e => (by cases e)⟩

/-- Right after acceptance in address mode the invariant holds. -/
theorem pending_inv (w : Word) (slot : Slot) : (pending w (onSlot slot)).Inv :=
  ⟨fun _ => ⟨rfl, rfl⟩, fun e => (by cases e), fun _ => rfl, fun _ _ => ⟨rfl, rfl⟩, fun _ e => absurd rfl e⟩

/-- Right after acceptance from reset the invariant holds. -/
theorem pending_reset_inv (w : Word) : (pending w State.reset).Inv :=
  ⟨fun e => (by cases e), fun e => (by cases e), fun _ => rfl, fun _ _ => ⟨rfl, rfl⟩, fun _ e => absurd rfl e⟩

theorem witness_StepKeepsInv :
    ∃ t, (midPlay.setHost (hosted [.access (.write 0x4#4 7#16)])).Inv ∧
      step (midPlay.setHost (hosted [.access (.write 0x4#4 7#16)])) = .next t := ⟨_, inv_setHost midPlay_inv _, rfl⟩

/-- In its last cycle the invariant holds. -/
theorem lastCycle_inv : lastCycle.Inv :=
  ⟨fun _ => ⟨rfl, rfl⟩, fun e => (by cases e), fun _ => rfl, fun _ e => (by cases e), fun _ _ => ⟨by decide, rfl⟩⟩

theorem witness_PulseLinesAreIdleWhileIdle :
    (∃ t, lastCycle.Inv ∧ Takes 1 lastCycle t ∧ t.busy = false) ∧ (onSlot 3#3).pul = 0b000#3 ∧
    Instr.waitChar ≠ .sweep ∧ ∀ slot pat, Instr.play 5#3 0#3 0#6 ≠ .play 6#3 slot pat :=
  ⟨⟨_, lastCycle_inv, rfl, rfl⟩, rfl, by decide, by decide⟩

theorem witness_ValidCurNamesTheAddressedSlot : ∃ t, lastCycle.Inv ∧ Takes 1 lastCycle t ∧ t.cur.valid = true :=
  ⟨_, lastCycle_inv, rfl, rfl⟩

/-- A host with nothing to do drives no reset. -/
theorem turn_silent (w : Word) (s : State) (h : s.host = HostAgent.idle) :
    (pending w s).host.turn Config.platform = .ok ⟨Pins.quiet, HostAgent.idle, false⟩ := by
  rw [show (pending w s).host = HostAgent.idle from h]; rfl

theorem witness_NoPulseCodeAtAModeChange :
    (∃ t turn, (pending 0x20C0#16 State.reset).Inv ∧ step (pending 0x20C0#16 State.reset) = .next t ∧
      (pending 0x20C0#16 State.reset).host.turn Config.platform = .ok turn ∧ turn.pins.rst = false ∧
      t.mode ≠ (pending 0x20C0#16 State.reset).mode ∧
      (pending 0x20C0#16 State.reset).mode = .sweep ∧ t.mode = .address) ∧
    (∃ t turn, (pending 0x1000#16 (onSlot 5#3)).Inv ∧ step (pending 0x1000#16 (onSlot 5#3)) = .next t ∧
      (pending 0x1000#16 (onSlot 5#3)).host.turn Config.platform = .ok turn ∧ turn.pins.rst = false ∧
      (pending 0x1000#16 (onSlot 5#3)).mode = .address ∧ t.mode = .sweep) ∧
    (∃ t turn, (pending 0x21C0#16 (onSlot 2#3)).Inv ∧ step (pending 0x21C0#16 (onSlot 2#3)) = .next t ∧
      (pending 0x21C0#16 (onSlot 2#3)).host.turn Config.platform = .ok turn ∧ turn.pins.rst = false ∧
      (pending 0x21C0#16 (onSlot 2#3)).mode = .address ∧ t.mode = .address ∧
      t.sel ≠ (pending 0x21C0#16 (onSlot 2#3)).sel) ∧
    (midPlay.Inv ∧ midPlay.mode = .address ∧ midPlay.pul ≠ 0#3) :=
  ⟨⟨_, _, pending_reset_inv _, rfl, turn_silent _ _ rfl, rfl, by decide, rfl, rfl⟩,
    ⟨_, _, pending_inv _ _, rfl, turn_silent _ _ rfl, rfl, rfl, rfl⟩,
    ⟨_, _, pending_inv _ _, rfl, turn_silent _ _ rfl, rfl, rfl, rfl, by decide⟩, midPlay_inv, rfl, by decide⟩

theorem witness_OnlyCommandsAndResetWriteLines :
    ∃ t turn, (pending 0x20C0#16 State.reset).Inv ∧ step (pending 0x20C0#16 State.reset) = .next t ∧
      (pending 0x20C0#16 State.reset).host.turn Config.platform = .ok turn ∧ turn.pins.rst = false ∧
      t.mode ≠ (pending 0x20C0#16 State.reset).mode :=
  ⟨_, _, pending_reset_inv _, rfl, turn_silent _ _ rfl, rfl, by decide⟩

theorem witness_NothingTheBlockDoesStopsIt :
    ∀ op ∈ (midPlay.setHost (hosted [.access (.write 0x0#4 0x1000#16), .poll, .reset none])).host.script,
      plainOp op = true := by decide

theorem witness_ErrorFlagsAreSticky :
    ∃ t, step (({ State.reset with errBusy := true, errIllegal := true } : State).setHost
        (hosted [.access (.write 0x1#4 0x000C#16)])) = .next t ∧ t.errBusy = false ∧ t.errIllegal = false :=
  ⟨_, rfl, rfl, rfl⟩

theorem witness_CodecLaws :
    ((0x61#8 : Byte) ≤ 0x61#8 ∧ (0x61#8 : Byte) ≤ 0x7A#8) ∧ ((0x61#8 : Byte) ≤ 0x7A#8 ∧ (0x7A#8 : Byte) ≤ 0x7A#8) ∧
    ((0x31#8 : Byte) ≤ 0x31#8 ∧ (0x31#8 : Byte) ≤ 0x39#8) ∧ ((0x31#8 : Byte) ≤ 0x39#8 ∧ (0x39#8 : Byte) ≤ 0x39#8) := by decide

theorem witness_LetterPatternsAreDistinct :
    (0x61#8 : Byte) ≤ 0x7A#8 ∧ (0x7A#8 : Byte) ≤ 0x7A#8 ∧ lookup bench 0x7A#8 = lookup bench 0x7A#8 := by decide

theorem witness_SlotsCycleWithASweepAtEachWrap :
    [0x61#8, 0x31#8, 0x32#8] ≠ ([] : List Byte) ∧ 4 = [0x61#8, 0x31#8, 0x32#8].length + digitRuns [0x61#8, 0x31#8, 0x32#8] := by
  decide

/-- Nine letters: the ninth slot is slot 0 again, after a sweep (P1). -/
theorem witness_SlotsCycleWithASweepAtEachWrap_wrap :
    List.replicate 9 0x61#8 ≠ [] ∧ 9 = (List.replicate 9 0x61#8).length + digitRuns (List.replicate 9 0x61#8) := by decide

theorem witness_OnePrefixSlotPerDigitRun :
    (displayWords bench (some [0x31#8]))[2]? = some (encode .waitSettle) := by decide

theorem witness_RequestDuration :
    [0x61#8, 0x31#8] ≠ ([] : List Byte) ∧ 1 = digitRuns [0x61#8, 0x31#8] ∧ 2 = [0x61#8, 0x31#8].length ∧ 3 = 1 + 2 ∧
    6 = ((displayWords bench (some [0x61#8, 0x31#8])).map dotsOf).sum := by decide

theorem witness_UnmappedCharacterIsOnlyAddressed :
    3 = ([0x31#8] ++ [0x23#8]).length + digitRuns ([0x31#8] ++ [0x23#8]) ∧ lookup bench 0x23#8 = none := by decide

theorem witness_DisplayStateAfterAText :
    4 = ([0x31#8, 0x32#8] ++ [0x61#8]).length + digitRuns ([0x31#8, 0x32#8] ++ [0x61#8]) := by decide

theorem witness_RejectedTextTouchesNothing :
    (∃ h, State.Due (midPlay.setHost (hosted [.displayText none])) (.displayText none) h ∧ h.script = []) ∧
    ∃ h, State.Due (midPlay.setHost (hosted [.displayText (some [])])) (.displayText (some [])) h ∧ h.script = [] :=
  ⟨⟨_, due_fresh _ [] _, rfl⟩, ⟨_, due_fresh _ [] _, rfl⟩⟩

theorem witness_WaitingHostIsNeverDropped :
    (∃ t, (fresh [.access (.write 0x0#4 0x20C0#16), .poll, .displayText (some [0x61#8])]).HostWaits ∧
      step (fresh [.access (.write 0x0#4 0x20C0#16), .poll, .displayText (some [0x61#8])]) = .next t ∧ t.busy = true) ∧
    ∃ t, (midPlay.setHost (hosted [.poll])).HostWaits ∧ step (midPlay.setHost (hosted [.poll])) = .next t :=
  ⟨⟨_, ⟨by decide, by decide⟩, rfl, rfl⟩, ⟨_, ⟨by decide, by decide⟩, rfl⟩⟩

theorem witness_ReferenceHostIssuesItsWordsInOrder :
    ∃ t, (fresh [.displayText (some [0x61#8])]).HostWaits ∧ step (fresh [.displayText (some [0x61#8])]) = .next t ∧
      t.cmd = 0x1000#16 := ⟨_, ⟨by decide, by decide⟩, rfl, rfl⟩

theorem witness_AssemblerWords :
    (7 : Nat) ≤ 7 ∧ (63 : Nat) ≤ 63 ∧ (7 : Nat) < 8 ∧ (63 : Nat) < 64 ∧ 65535 < 65536 ∧
    (∀ d ∈ [1, 6], 1 ≤ d ∧ d ≤ 6) ∧ (∃ d ∈ [0], d < 1 ∨ 6 < d) ∧ (∃ d ∈ [1, 7], d < 1 ∨ 6 < d) ∧
    lookup bench 0x61#8 = some 0x01#6 ∧ lookup bench 0x23#8 = none := by decide

theorem witness_OutputPinsFollowTheRegisters : (onSlot 3#3).level .latchSet ≠ State.reset.level .latchSet := by decide

theorem witness_EveryUnmappedCharacterIsReported :
    [0x61#8, 0x23#8] ≠ ([] : List Byte) ∧
    (∃ t, step (fresh [.note ⟨1, false, none⟩ [.unmapped 0x23#8], .poll]) = .next t ∧
      t.host.diagnostics = [.unmapped 0x23#8]) ∧
    ∃ t, step (fresh [.displayText none]) = .next t ∧ t.host.diagnostics = [.inputRejected] :=
  ⟨by decide, ⟨_, rfl, rfl⟩, ⟨_, rfl, rfl⟩⟩

/-- The codes of an unmapped character's two steps: its diagnostic comes before its slot (V17, R178). -/
theorem test_unmapped_is_reported :
    charOps bench ⟨1, false, none⟩ 0x23#8 =
      [.note ⟨1, false, none⟩ [.unmapped 0x23#8], .access (.write 0x0#4 0x2040#16), .poll, .note ⟨2, false, none⟩ [],
       .access (.write 0x0#4 0x4001#16), .poll, .note ⟨2, false, some 1#3⟩ []] := by decide

theorem witness_OverlappingRequestIsRefused :
    [0x61#8] ≠ ([] : List Byte) ∧
    (∃ h, State.Due (State.reset.setHost { hosted [.displayText (some [0x61#8])] with request := some ⟨3, false, none⟩ })
      (.displayText (some [0x61#8])) h) ∧
    ∃ h, State.Due (fresh [.displayText (some [0x61#8])]) (.displayText (some [0x61#8])) h ∧
      (fresh [.displayText (some [0x61#8])]).host.request = none :=
  ⟨by decide, ⟨{ hosted [] with request := some ⟨3, false, none⟩ }, rfl, .inr ⟨rfl, rfl⟩, rfl, rfl⟩,
    ⟨_, due_fresh _ [] _, rfl⟩⟩

end Sys2Proof.Tests
end

section
/-!
PROOF. The invariant along steps and runs (R34, R35, R122): each part of a step keeps it, so a step does, so a run does.
-/

namespace Sys2Proof.Machine

variable {s t : State} {cfg : Config}

/-- A host write keeps the invariant, where a write that finds `BUSY = 0` finds an idle block (R202, R246). -/
theorem inv_writeReg {busy : Bool} {n : Offset} {v : Word} (h : s.Inv) (hb : busy = false → s.busy = false)
    (hw : s.writeReg busy n v = .next t) : t.Inv := by
  obtain ⟨-, -, rfl⟩ | ⟨hf, -, ha⟩ | ⟨-, rfl⟩ | ⟨hf, -, rfl⟩ | ⟨-, -, rfl⟩ := writeReg_cases hw
  · exact inv_raise_errBusy h
  · exact inv_accept h (hb hf) ha
  · exact inv_clearFlags h v
  · exact inv_setTiming h (hb hf) _
  · exact h

/-- An edge of the block keeps the invariant, whatever is on its pins (R230, R233, R241). -/
theorem inv_clockEdge {pins : Pins} (h : s.Inv) (hc : s.clockEdge cfg pins = .next t) : t.Inv := by
  have hseq := inv_sequencerEdge h cfg.clkPerMs
  obtain ⟨-, rfl⟩ | ⟨-, -, rfl⟩ | ⟨n, -, -, rfl⟩ | ⟨n, v, -, -, hw⟩ := clockEdge_cases hc
  · exact inv_resetBlock s
  · exact inv_setRdata hseq _
  · exact inv_setRdata hseq _
  · exact inv_writeReg (inv_setRdata hseq none) idle_of_busySeen hw

theorem inv_settlePoll (h : s.Inv) : s.settlePoll.Inv := by
  obtain ⟨a, e⟩ := settlePoll_block s
  exact e ▸ inv_setHost h a

theorem inv_step (h : s.Inv) (hs : step s = .next t) : t.Inv := by
  obtain ⟨turn, u, -, hc, rfl⟩ := step_next hs
  have hu : u.Inv := inv_clockEdge (inv_setHost h turn.host) hc
  cases turn.polling with
  | true => exact inv_settlePoll hu
  | false => exact hu

theorem inv_runs {n : Nat} (h : s.Inv) (hr : Runs n s t) : t.Inv := by
  induction n generalizing s with
  | zero => cases hr; exact h
  | succ n ih =>
    obtain ⟨u, hu, hr⟩ := step_of_run hr
    exact ih (inv_step h hu) hr

theorem inv_reset : State.reset.Inv := inv_resetBlock State.reset

end Sys2Proof.Machine
end

section
/-!
PROOF. The registers made of fields, read field by field (R26 to R28), and the timing registers as stored and read (R29).
-/

namespace Sys2Proof.Machine

variable (s : State)

@[simp] theorem readReg_cmd : s.readReg 0x0#4 = s.cmd := rfl
@[simp] theorem readReg_status : s.readReg 0x1#4 = s.statusWord := rfl
@[simp] theorem readReg_lines : s.readReg 0x2#4 = s.linesWord := rfl
@[simp] theorem readReg_cur : s.readReg 0x3#4 = s.cur.word := rfl

/-- `MODE` as a bit is the level of `LATCH_SET` (R23). -/
theorem Mode.bit_eq (m : Mode) : m.bit = BitVec.ofBool (m == .address) := by
  cases m <;> rfl

/-- Every bit of `STATUS` (R26). -/
theorem statusWord_getLsbD :
    s.statusWord.getLsbD 0 = s.busy ∧ s.statusWord.getLsbD 1 = (s.mode == .address) ∧
      s.statusWord.getLsbD 2 = s.errBusy ∧ s.statusWord.getLsbD 3 = s.errIllegal ∧
      ∀ j : Nat, 4 ≤ j → s.statusWord.getLsbD j = false := by
  simp only [State.statusWord, Mode.bit_eq, BitVec.getLsbD_append]
  refine ⟨by simp, by simp, by simp, by simp, fun j hj => ?_⟩
  simp (disch := omega) only [if_neg, BitVec.getLsbD_zero]

/-- Every bit of `LINES` (R27). -/
theorem linesWord_getLsbD :
    s.linesWord.getLsbD 0 = (s.mode == .address) ∧ s.linesWord.getLsbD 1 = !(s.mode == .address) ∧
      s.linesWord.getLsbD 2 = s.sel.getLsbD 0 ∧ s.linesWord.getLsbD 3 = s.sel.getLsbD 1 ∧
      s.linesWord.getLsbD 4 = s.sel.getLsbD 2 ∧ s.linesWord.getLsbD 5 = s.pul.getLsbD 0 ∧
      s.linesWord.getLsbD 6 = s.pul.getLsbD 1 ∧ s.linesWord.getLsbD 7 = s.pul.getLsbD 2 ∧
      ∀ j : Nat, 8 ≤ j → s.linesWord.getLsbD j = false := by
  simp only [State.linesWord, Mode.bit_eq, BitVec.getLsbD_append]
  refine ⟨by simp, by simp, by simp, by simp, by simp, by simp, by simp, by simp, fun j hj => ?_⟩
  simp (disch := omega) only [if_neg, BitVec.getLsbD_zero]

/-- The fields of `CUR` (R28). -/
theorem Cur.word_fields (c : Cur) :
    c.word.extractLsb' 0 3 = c.slot ∧ c.word.getLsbD 3 = c.valid ∧ c.word.extractLsb' 4 4 = 0#4 ∧
      c.word.extractLsb' 8 6 = c.pattern ∧ c.word.extractLsb' 14 2 = 0#2 := by
  unfold Cur.word
  refine ⟨extract_low _ _, ?_, ?_, ?_, ?_⟩
  · simp only [BitVec.getLsbD_append]; simp
  · rw [extract_high _ c.slot 1 4, extract_high _ (BitVec.ofBool c.valid) 0 4]
    exact extract_low _ _
  · rw [extract_high _ c.slot 5 6, extract_high _ (BitVec.ofBool c.valid) 4 6, extract_high _ 0#4 0 6]
    exact extract_low _ _
  · rw [extract_high _ c.slot 11 2, extract_high _ (BitVec.ofBool c.valid) 10 2, extract_high _ 0#4 6 2,
      extract_high _ c.pattern 0 2]
    simp

/-- The reserved offsets read as zero (R30). -/
theorem readReg_reserved {n : Offset} (hn : 0xA#4 ≤ n) : s.readReg n = 0#16 := by
  have ne (m : Offset) (hm : m < 0xA#4) : n ≠ m := by rintro rfl; bv_omega
  simp [State.readReg, ne]

@[simp] theorem setTiming_statusWord (T : Timing) : (s.setTiming T).statusWord = s.statusWord := rfl
@[simp] theorem setTiming_linesWord (T : Timing) : (s.setTiming T).linesWord = s.linesWord := rfl

/-- The six offsets of the timing registers (R29). -/
theorem isTimingOffset_iff (n : Offset) :
    isTimingOffset n = true ↔ n = 0x4#4 ∨ n = 0x5#4 ∨ n = 0x6#4 ∨ n = 0x7#4 ∨ n = 0x8#4 ∨ n = 0x9#4 := by
  revert n; decide

/-- A timing register reads back what was stored in it (R29). -/
theorem readReg_setTiming_write_same {n : Offset} (hn : isTimingOffset n = true) (v : Word) :
    (s.setTiming (s.timing.write n v)).readReg n = v := by
  obtain rfl | rfl | rfl | rfl | rfl | rfl := (isTimingOffset_iff n).mp hn <;> rfl

/-- Storing in one timing register leaves what every other offset reads (R29). -/
theorem readReg_setTiming_write_of_ne {m n : Offset} (hn : isTimingOffset n = true) (hm : m ≠ n) (v : Word) :
    (s.setTiming (s.timing.write n v)).readReg m = s.readReg m := by
  obtain rfl | rfl | rfl | rfl | rfl | rfl := (isTimingOffset_iff n).mp hn <;>
    simp [State.readReg, Timing.write, hm]

end Sys2Proof.Machine
end

section
/-!
PROOF. What a host write does: by its offset and the `BUSY` it finds, and as a step of the machine (R25, R29, R30, R202).
-/

namespace Sys2Proof.Machine

open Sys2Proof.Statements

variable {s t : State} {h : HostAgent} {n : Offset} {v w : Word}

/-! ### What a write does, by its offset -/

theorem isTimingOffset_of_le (h4 : 0x4#4 ≤ n) (h9 : n ≤ 0x9#4) : isTimingOffset n = true := by
  simp [isTimingOffset, h4, h9]

theorem isGuarded_of_timing (hn : isTimingOffset n = true) : isGuarded n = true := by
  simp [isGuarded, hn]

/-- A reserved offset is neither guarded nor `STATUS` (R30). -/
theorem reserved_unguarded : 0xA#4 ≤ n → isGuarded n = false ∧ n ≠ 0x1#4 := by
  revert n; decide

/-- Every command has a meaning (R200). -/
theorem exec_next (i : Instr) (s : State) : ∃ t, exec i s = .next t := ⟨_, exec_eq i s⟩

/-- A write of `STATUS` clears flags, whatever `BUSY` it finds (R26). -/
theorem writeReg_status (busy : Bool) (v : Word) (s : State) : s.writeReg busy 0x1#4 v = .next (s.clearFlags v) := rfl

/-- `LINES`, `CUR` and the reserved offsets ignore writes, whatever `BUSY` they find (R27, R28, R30). -/
theorem writeReg_ignored {busy : Bool} (hg : isGuarded n = false) (h1 : n ≠ 0x1#4) :
    s.writeReg busy n v = .next s := by
  obtain ⟨t, ht⟩ := writeReg_next busy n v s
  obtain ⟨-, hg', -⟩ | ⟨-, rfl, -⟩ | ⟨rfl, -⟩ | ⟨-, htim, -⟩ | ⟨-, -, rfl⟩ := writeReg_cases ht
  · simp [hg] at hg'
  · cases hg
  · exact absurd rfl h1
  · simp [isGuarded, htim] at hg
  · exact ht

/-- A guarded offset drops a write that finds `BUSY = 1` (R202). -/
theorem writeReg_guarded_busy (hg : isGuarded n = true) : s.writeReg true n v = .next (s.raise .errBusy) := by
  obtain ⟨t, ht⟩ := writeReg_next true n v s
  obtain ⟨-, -, rfl⟩ | ⟨hf, -⟩ | ⟨rfl, -⟩ | ⟨hf, -⟩ | ⟨hg', -⟩ := writeReg_cases ht
  · exact ht
  · cases hf
  · cases hg
  · cases hf
  · simp [hg] at hg'

/-- A timing register stores a write that finds `BUSY = 0` (R29). -/
theorem writeReg_timing_idle (hn : isTimingOffset n = true) :
    s.writeReg false n v = .next (s.setTiming (s.timing.write n v)) := by
  obtain ⟨t, ht⟩ := writeReg_next false n v s
  obtain ⟨hf, -⟩ | ⟨-, rfl, -⟩ | ⟨rfl, -⟩ | ⟨-, -, rfl⟩ | ⟨hg, -⟩ := writeReg_cases ht
  · cases hf
  · cases hn
  · cases hn
  · exact ht
  · simp [isGuarded, hn] at hg

/-! ### What the step of a due write does -/

/-- The step of a due write: the block's edge, then the write (R69, R233). -/
theorem step_write (hd : s.Due (.access (.write n v)) h) :
    step s = (edged s h).writeReg (busySeen Config.platform s (s.sequencerEdge clk)) n v :=
  step_access hd

/-- While idle the block's edge does nothing, and a write finds `BUSY = 0` (R25). -/
theorem step_write_idle (hb : s.busy = false) (hd : s.Due (.access (.write n v)) h) :
    step s = ((s.setHost h).setRdata none).writeReg false n v := by
  rw [step_write hd, busySeen_idle hb, edged, sequencerEdge_idle hb]; rfl

theorem step_write_ignored (hg : isGuarded n = false) (h1 : n ≠ 0x1#4) (hd : s.Due (.access (.write n v)) h) :
    step s = .next (edged s h) :=
  (step_write hd).trans (writeReg_ignored hg h1)

theorem step_write_guarded_busy (hb : (s.sequencerEdge clk).busy = true) (hg : isGuarded n = true)
    (hd : s.Due (.access (.write n v)) h) : step s = .next ((edged s h).raise .errBusy) := by
  rw [step_write hd, busySeen_busy hb, writeReg_guarded_busy hg]

/-- The step that takes a `CMD` write while idle is the meaning of the decoded word (R25, R121). -/
theorem step_cmd_write_idle (hb : s.busy = false) (hd : s.Due (.access (.write 0x0#4 w)) h) :
    step s = exec (decode w) { s with cmd := w, busRdata := none, host := h } :=
  step_write_idle hb hd

theorem cmd_of_accept (ha : s.accept w = .next t) : t.cmd = w := by
  obtain ⟨-, -, -, hc, -⟩ := exec_frame ha
  exact hc

/-- After `withFetchWord` the write of the word to `CMD` is due (log 10). -/
theorem withFetchWord_due (s : State) (w : Word) :
    (s.withFetchWord 16 w.toNat).Due (.access (.write 0x0#4 w)) s.host := by
  have hw : BitVec.ofNat 16 (w.toNat % 2 ^ 16) = w := by
    rw [Nat.mod_eq_of_lt w.isLt, BitVec.ofNat_toNat, BitVec.setWidth_eq]
  unfold State.withFetchWord
  rw [hw]
  exact ⟨rfl, .inl rfl, rfl, rfl⟩

end Sys2Proof.Machine
end

section
/-!
PROOF. Which commands leave the pulse lines alone, and what a line's level depends on (R21, R34).
-/

namespace Sys2Proof.Machine

/-- Besides `SWEEP` and a well-formed `PLAY`, no command writes the pulse lines (R136, R142, R150). -/
theorem applyPhases_pul_of_no_pulse {i : Instr} (hs : i ≠ .sweep) (hp : ∀ slot pat, i ≠ .play 6#3 slot pat)
    (s : State) (T : Timing) : (s.applyPhases (phasesOf i T)).pul = s.pul := by
  cases i with
  | sweep => exact absurd rfl hs
  | addr slot => rw [phasesOf, addrPhases, applyPhases_cons, applyPhase_address, applyPhases_nil]
  | play len slot pat =>
    have hl : len ≠ 6#3 := by rintro rfl; exact hp slot pat rfl
    rw [phasesOf, playPhases, if_neg hl, applyPhases_nil]
  | waitSettle => rw [phasesOf, waitSettlePhases, applyPhases_cons, applyPhase_hold, applyPhases_nil]
  | waitChar => rw [phasesOf, waitCharPhases, applyPhases_cons, applyPhase_hold, applyPhases_nil]
  | _ => rfl

/-- A line's level is a function of the three line registers (R21). -/
theorem level_congr {s t : State} (l : Line) (hm : t.mode = s.mode) (hs : t.sel = s.sel) (hp : t.pul = s.pul) :
    t.level l = s.level l := by
  cases l <;> simp [State.level, hm, hs, hp]

end Sys2Proof.Machine
end

section
/-!
PROOF. The statements about the registers, the reset values and the invariant.
-/

namespace Sys2Proof.Proofs

open Sys2Proof.Machine Sys2Proof.Statements

/-- Settles O34: the host's turn, the sequencer's edge, the access and the settled poll each keep the invariant. -/
theorem stepKeepsInv : Obligations.StepKeepsInv := fun _ _ => inv_step

/-- Settles O19: the bits of the word, and a write that no `BUSY` guards. -/
theorem statusReadsAndClears : Obligations.StatusReadsAndClears := by
  refine ⟨statusWord_getLsbD, rfl, fun s h v hd => ?_⟩
  rw [step_write hd, writeReg_status, State.clearFlags, edged, sequencerEdge_errBusy, sequencerEdge_errIllegal]

/-- Settles O20: the bits of the word, and a write that is ignored. -/
theorem linesReadsTheLevels : Obligations.LinesReadsTheLevels :=
  ⟨linesWord_getLsbD, rfl, fun _ _ _ => step_write_ignored rfl (by decide)⟩

/-- Settles O22: the fields of the word, and a write that is ignored. -/
theorem curReadsItsFields : Obligations.CurReadsItsFields :=
  ⟨fun s => s.cur.word_fields, rfl, fun _ _ _ => step_write_ignored rfl (by decide)⟩

/-- Settles O23: a reserved offset names no register, and its write is ignored. -/
theorem reservedOffsetsAreInert : Obligations.ReservedOffsetsAreInert := by
  intro n hn
  obtain ⟨hg, h1⟩ := reserved_unguarded hn
  exact ⟨fun s => readReg_reserved s hn, fun s h v => step_write_ignored hg h1⟩

/-- Settles O24: the timing the idle write leaves is `Timing.write`. -/
theorem timingRegistersStoreWhileIdle : Obligations.TimingRegistersStoreWhileIdle := by
  refine ⟨rfl, fun s h n v hb h4 h9 hd => ?_, ?_, fun s h n v hb h4 h9 hd => ?_⟩
  · have hn := isTimingOffset_of_le h4 h9
    exact ⟨s.timing.write n v, (step_write_idle hb hd).trans (writeReg_timing_idle hn),
      readReg_setTiming_write_same s hn v, fun m hm => readReg_setTiming_write_of_ne s hn hm v⟩
  · rintro T s rfl
    exact ⟨rfl, rfl, rfl, rfl, rfl, rfl⟩
  · exact step_write_guarded_busy hb (isGuarded_of_timing (isTimingOffset_of_le h4 h9)) hd

/-- Settles O35: the invariant along the run, and what each command's phases make of `PUL`. -/
theorem pulseLinesAreIdleWhileIdle : Obligations.PulseLinesAreIdleWhileIdle := by
  refine ⟨inv_reset, rfl, fun n s t hs hr hb => ?_, fun s => ?_, fun s => applyPhases_dot_pul s,
    fun i s => applyPhases_pul i s.timing, fun i s hs hp => applyPhases_pul_of_no_pulse hs hp s s.timing⟩
  · obtain ⟨hpul, -⟩ := (inv_runs hs hr).idle hb
    exact hpul
  · rw [phasesOf, applyPhases_sweep]

/-- Settles O36: bits of `STATUS` and `LINES`, and the invariant along the run. -/
theorem validCurNamesTheAddressedSlot : Obligations.ValidCurNamesTheAddressedSlot := by
  refine ⟨fun s => ?_, fun n s t hs hr => (inv_runs hs hr).cur_addressed⟩
  obtain ⟨-, hmode, -⟩ := statusWord_getLsbD s
  obtain ⟨hset, hreset, -⟩ := linesWord_getLsbD s
  exact ⟨hmode, by rw [readReg_lines, hset, hreset]⟩

/-- Settles O28: no meaning writes `CMD`, so it holds the word that the accepting write put there. -/
theorem stepRunsTheDecodedCommand : Obligations.StepRunsTheDecodedCommand := by
  refine ⟨fun s h w hb hd => ?_, readReg_cmd, rfl, fun s t w => cmd_of_accept⟩
  have hstep := step_cmd_write_idle hb hd
  obtain ⟨t, ht⟩ := exec_next (decode w) { s with cmd := w, busRdata := none, host := h }
  obtain ⟨-, -, -, hcmd, -⟩ := exec_frame ht
  exact ⟨hstep, t, hstep.trans ht, hcmd⟩

/-- Settles O29: an idle block whose host has the `CMD` write due (as in O28). -/
theorem fetchWordRunsAtTheNextStep : Obligations.FetchWordRunsAtTheNextStep := fun s w =>
  step_cmd_write_idle rfl (withFetchWord_due s w)

/-- Settles O32: a closed fact about the one reset state. -/
theorem resetValues : Obligations.ResetValues := by
  unfold Obligations.ResetValues
  decide

/-- Settles O33: reset from any state establishes the invariant. -/
theorem invHoldsAtReset : Obligations.InvHoldsAtReset := inv_reset

/-- Settles O38: both levels come from the one register `MODE`. -/
theorem latchLinesAreComplementary : Obligations.LatchLinesAreComplementary := fun s =>
  (Bool.not_not (s.mode == .address)).symm

/-- Settles O55: each level reads its own register, so equal registers give equal levels. -/
theorem outputPinsFollowTheRegisters : Obligations.OutputPinsFollowTheRegisters := by
  refine ⟨fun s => ?_, fun s t l hl => ?_⟩
  · obtain ⟨hbusy, -⟩ := statusWord_getLsbD s
    exact ⟨rfl, rfl, rfl, rfl, rfl, rfl, rfl, rfl, hbusy.symm⟩
  · by_contra! hsame
    obtain ⟨hm, hs, hp⟩ := hsame
    exact hl (level_congr l hm hs hp)

end Sys2Proof.Proofs
end

section
/-!
PROOF. Reads, and accesses on the host bus: which offset an address reaches, and the step of an access there
(R61 to R64, R66, R233).
-/

namespace Sys2Proof.Machine

open Sys2Proof.Statements

variable {s : State} {cfg : Config} {h g : HostAgent} {op : HostOp} {a : Access} {n : Offset} {v : Word}
  {addr width : Nat} {r : Refusal}

/-- A register's value does not depend on the read-data pin or on the host (R66). -/
@[simp] theorem readReg_setRdata (n : Offset) (p : Option Word) : (s.setRdata p).readReg n = s.readReg n := rfl
@[simp] theorem readReg_setHost (n : Offset) (g : HostAgent) : (s.setHost g).readReg n = s.readReg n := rfl

/-- The sequencer's event is the same whatever the host is (R241). -/
theorem edged_setHost (s : State) (g h : HostAgent) : edged (s.setHost g) h = edged s h := by
  simp only [edged, sequencerEdge_setHost]
  rfl

/-- The step of a due read: the sequencer's event, and the value after it on the pins (R66, R69, R233). -/
theorem step_read (hd : s.Due (.access (.read n)) h) :
    step s = .next { edged s h with busRdata := some ((s.sequencerEdge clk).readReg n) } := by
  rw [step_access hd, State.performAccess, readReg_setRdata, readReg_setHost]
  rfl

/-! ### The offset that an address reaches -/

/-- `BAM_BASE` is a multiple of 32 (R61). -/
theorem bamBase_mod (cfg : Config) : cfg.bamBase % 32 = 0 := Nat.mul_mod_right 32 _

/-- A 16-bit access at `BAM_BASE + 2n` reaches offset `n` (R61, R62). -/
theorem busOffset_offset (cfg : Config) (n : Offset) : busOffset cfg (cfg.bamBase + 2 * n.toNat) 2 = .ok n := by
  have hbase := bamBase_mod cfg
  have heven : (cfg.bamBase + 2 * n.toNat) % 2 = 0 := by omega
  have hrange : cfg.bamBase ≤ cfg.bamBase + 2 * n.toNat ∧ cfg.bamBase + 2 * n.toNat < cfg.bamBase + 32 := by omega
  simp [busOffset, heven, hrange]

theorem busOffset_width (hw : width ≠ 2) : busOffset cfg addr width = .error .accessWidth := if_pos hw

theorem busOffset_odd (ha : addr % 2 = 1) : busOffset cfg addr 2 = .error .misaligned := by
  simp [busOffset, ha]

theorem busOffset_outside (he : addr % 2 = 0) (ho : addr < cfg.bamBase ∨ cfg.bamBase + 32 ≤ addr) :
    busOffset cfg addr 2 = .error .outsideBlock := by
  have hout : ¬ (cfg.bamBase ≤ addr ∧ addr < cfg.bamBase + 32) := by omega
  simp [busOffset, he, hout]

/-! ### The turn of a due access -/

theorem turn_access (hd : s.Due (.access a) h) : s.host.turn cfg = .ok ⟨⟨false, some a⟩, h, false⟩ := turn_due hd

theorem turn_memRead (hd : s.Due (.memRead addr width) h) :
    s.host.turn cfg = (busOffset cfg addr width).map fun n => ⟨⟨false, some (.read n)⟩, h, false⟩ := turn_due hd

theorem turn_memWrite (hd : s.Due (.memWrite addr width v) h) :
    s.host.turn cfg = (busOffset cfg addr width).map fun n => ⟨⟨false, some (.write n v)⟩, h, false⟩ := turn_due hd

/-- Another operation in the place of one that is due is due. -/
theorem due_replaced (hd : s.Due op h) (op' : HostOp) :
    (s.setHost { s.host with script := op' :: h.script }).Due op' h := by
  obtain ⟨-, hpace, hrequest, hdiag⟩ := hd
  exact ⟨rfl, hpace, hrequest, hdiag⟩

/-! ### The step of a due access on the host bus -/

/-- A step sees the host through its turn alone (R7). -/
theorem step_setHost_of_turn_eq (ht : g.turn Config.platform = s.host.turn Config.platform) :
    step (s.setHost g) = step s := by
  simp only [step, machineEdge, setHost_host, ht]
  rfl

/-- Where the turn of a due operation is an access on the pins, the step is that of the access in its place (R233). -/
theorem step_of_turn_access (hd : s.Due op h) (ht : s.host.turn Config.platform = .ok ⟨⟨false, some a⟩, h, false⟩) :
    step s = step (s.setHost { s.host with script := .access a :: h.script }) :=
  (step_setHost_of_turn_eq ((turn_access (due_replaced hd _)).trans ht.symm)).symm

theorem step_memRead (hd : s.Due (.memRead addr width) h) (hn : busOffset Config.platform addr width = .ok n) :
    step s = step (s.setHost { s.host with script := .access (.read n) :: h.script }) :=
  step_of_turn_access hd (by rw [turn_memRead hd, hn]; rfl)

theorem step_memWrite (hd : s.Due (.memWrite addr width v) h) (hn : busOffset Config.platform addr width = .ok n) :
    step s = step (s.setHost { s.host with script := .access (.write n v) :: h.script }) :=
  step_of_turn_access hd (by rw [turn_memWrite hd, hn]; rfl)

/-- A refused turn refuses the step (R62, R64). -/
theorem step_refused (ht : s.host.turn Config.platform = .error r) : step s = .refused r := by
  simp only [step, machineEdge, ht]

/-- An access whose address or width reaches no offset is refused, read or write (U1, U2, U3). -/
theorem step_bus_refused (hd : s.Due (.memRead addr width) h ∨ s.Due (.memWrite addr width v) h)
    (hr : busOffset Config.platform addr width = .error r) : step s = .refused r := by
  obtain hd | hd := hd
  · exact step_refused (by rw [turn_memRead hd, hr]; rfl)
  · exact step_refused (by rw [turn_memWrite hd, hr]; rfl)

end Sys2Proof.Machine
end

section
/-!
PROOF. The statements about reads and about accesses on the host bus.
-/

namespace Sys2Proof.Proofs

open Sys2Proof.Machine Sys2Proof.Statements

/-- Settles O27: the access of a read sets the read-data pin alone. -/
theorem readsHaveNoSideEffect : Obligations.ReadsHaveNoSideEffect := fun _ _ _ => step_read

/-- Settles O30: `busOffset` finds the offset or the reason, and the host's turn is then that access or that refusal. -/
theorem busAccessesReachTheirOffsets : Obligations.BusAccessesReachTheirOffsets := by
  refine ⟨bamBase_mod _, fun s h n hd => ?_, fun s h n v hd => step_memWrite hd (busOffset_offset _ n),
    fun s h addr width v hd => ⟨fun hw => ?_, ?_, ?_⟩⟩
  · rw [step_memRead hd (busOffset_offset _ n), step_read (due_replaced hd _), edged_setHost, sequencerEdge_setHost,
      readReg_setHost]
  · exact step_bus_refused hd (busOffset_width hw)
  · rintro rfl ha
    exact step_bus_refused hd (busOffset_odd ha)
  · rintro rfl he ho
    exact step_bus_refused hd (busOffset_outside he ho)

end Sys2Proof.Proofs
end

section
/-!
PROOF. The rows of the opcode map: a row looks at the opcode and at `WSEL` alone, so the rows partition the words, and the
row of a word gives its command, with the operands read from the word (R81, R84, R87).
-/

namespace Sys2Proof

variable {w : Word} {i : Instr}

@[simp] theorem opField_and (w v : Word) : Word.opField (w &&& v) = w.opField &&& v.opField := BitVec.extractLsb'_and
@[simp] theorem wselField_and (w v : Word) : Word.wselField (w &&& v) = w.wselField &&& v.wselField :=
  BitVec.extractLsb'_and

/-- The opcode, the ten bits between, and `WSEL` make up the word (R81). -/
theorem word_of_opcode_and_wsel (w : Word) : w.opField ++ w.extractLsb' 2 10 ++ w.wselField = w := by
  unfold Word.opField Word.wselField
  rw [append_fields w 2 10 4, append_fields w 0 2 14]
  simp

/-- A row that fixes no bit between the opcode and `WSEL` looks at these two fields alone. -/
theorem inRow_eq {m f : Word} (hm : m.extractLsb' 2 10 = 0#10) (hf : f.extractLsb' 2 10 = 0#10) (w : Word) :
    Word.inRow m f w = ((w.opField &&& m.opField) == f.opField && (w.wselField &&& m.wselField) == f.wselField) := by
  rw [Word.inRow, Bool.eq_iff_iff, Bool.and_eq_true, beq_iff_eq, beq_iff_eq, beq_iff_eq]
  constructor
  · rintro rfl
    exact ⟨(opField_and w m).symm, (wselField_and w m).symm⟩
  · rintro ⟨hop, hwsel⟩
    rw [← word_of_opcode_and_wsel (w &&& m), ← word_of_opcode_and_wsel f, opField_and, wselField_and,
      BitVec.extractLsb'_and, hm, hf, hop, hwsel, BitVec.and_zero]

/-- The opcode and the `WSEL` of the words in a command's row (R84). -/
def Instr.rowFields (op : BitVec 4) (wsel : BitVec 2) : Instr → Bool
  | .nop => op = 0x0#4
  | .sweep => op = 0x1#4
  | .addr _ => op = 0x2#4
  | .play _ _ _ => op = 0x3#4
  | .waitSettle => op = 0x4#4 ∧ wsel = 0#2
  | .waitChar => op = 0x4#4 ∧ wsel = 1#2
  | .illegalWait _ => op = 0x4#4 ∧ wsel ≠ 0#2 ∧ wsel ≠ 1#2
  | .illegalOp5 _ => op = 0x5#4
  | .illegalOp67 _ => op = 0x6#4 ∨ op = 0x7#4
  | .illegalOp8F _ => 0x8#4 ≤ op

/-- An opcode of the last row is none below it (R84). -/
theorem opcode_ne_of_ge {op m : BitVec 4} (hop : 0x8#4 ≤ op) (hm : m < 0x8#4) : op ≠ m := by
  rintro rfl
  bv_omega

/-- Every command's row stands in the opcode map (R84). -/
theorem row_mem_opcodeTable (i : Instr) : i.row ∈ opcodeTable := by
  cases i <;> simp [opcodeTable, Instr.row]

/-- No row fixes a bit between the opcode and `WSEL` (R84). -/
theorem row_between_free (i : Instr) : i.row.mask.extractLsb' 2 10 = 0#10 ∧ i.row.fixed.extractLsb' 2 10 = 0#10 := by
  have h : ∀ r ∈ opcodeTable, r.mask.extractLsb' 2 10 = 0#10 ∧ r.fixed.extractLsb' 2 10 = 0#10 := by decide
  exact h i.row (row_mem_opcodeTable i)

/-- Whether a word lies in a command's row is seen from its opcode and its `WSEL` (R84). -/
theorem row_matches_eq (i : Instr) (w : Word) : i.row.matches w = i.rowFields w.opField w.wselField := by
  obtain ⟨hm, hf⟩ := row_between_free i
  rw [OpcodeRow.matches, inRow_eq hm hf]
  generalize w.opField = op
  generalize w.wselField = wsel
  -- in each row, a fact about the sixteen opcodes and the four values of `WSEL`
  cases i <;> simp only [Instr.row, Instr.rowFields] <;> revert op wsel <;> decide

/-- Every word lies in a row (R84). -/
theorem exists_row_matches (w : Word) : ∃ i : Instr, i.row.matches w = true := by
  have h : ∀ (op : BitVec 4) (wsel : BitVec 2), ∃ i ∈ [Instr.nop, .sweep, .addr 0#3, .play 0#3 0#3 0#6, .waitSettle,
      .waitChar, .illegalWait 0#16, .illegalOp5 0#16, .illegalOp67 0#16, .illegalOp8F 0#16],
      i.rowFields op wsel = true := by decide
  obtain ⟨i, -, hi⟩ := h w.opField w.wselField
  exact ⟨i, (row_matches_eq i w).trans hi⟩

/-- The command of the same row with its operands read from `w` (R84, R87). -/
def Instr.withOperandsOf (w : Word) : Instr → Instr
  | .nop => .nop
  | .sweep => .sweep
  | .addr _ => .addr w.slotField
  | .play _ _ _ => .play w.lenField w.slotField w.patField
  | .waitSettle => .waitSettle
  | .waitChar => .waitChar
  | .illegalWait _ => .illegalWait w
  | .illegalOp5 _ => .illegalOp5 w
  | .illegalOp67 _ => .illegalOp67 w
  | .illegalOp8F _ => .illegalOp8F w

@[simp] theorem row_withOperandsOf (w : Word) (i : Instr) : (i.withOperandsOf w).row = i.row := by
  cases i <;> rfl

theorem wf_withOperandsOf (h : i.row.matches w = true) : (i.withOperandsOf w).wf = true := by
  cases i with
  | illegalWait _ => exact h
  | illegalOp5 _ => exact h
  | illegalOp67 _ => exact h
  | illegalOp8F _ => exact h
  | _ => rfl

/-- The decoder reads a word of a row as that row's command (R84, R87). -/
theorem decode_of_matches (h : i.row.matches w = true) : decode w = i.withOperandsOf w := by
  rw [row_matches_eq] at h
  cases i with
  | illegalOp8F v =>
    have hop : 0x8#4 ≤ w.opField := of_decide_eq_true h
    simp [decode, decodeReserved, opcode_ne_of_ge hop, Instr.withOperandsOf]
  | illegalOp67 v =>
    obtain hop | hop := of_decide_eq_true h <;> simp [decode, decodeReserved, hop, Instr.withOperandsOf]
  | _ => simp [decode, decodeReserved, of_decide_eq_true h, Instr.withOperandsOf]

/-- A word lies in the row of the command it decodes to (R84). -/
theorem decode_row_matches (w : Word) : (decode w).row.matches w = true := by
  obtain ⟨i, hi⟩ := exists_row_matches w
  rw [decode_of_matches hi, row_withOperandsOf]
  exact hi

/-- A word lies in no other row (R84). -/
theorem row_matches_iff (i : Instr) (w : Word) : i.row.matches w = true ↔ i.row = (decode w).row := by
  constructor
  · intro h
    rw [decode_of_matches h, row_withOperandsOf]
  · intro h
    rw [h]
    exact decode_row_matches w

/-- The rows of the opcode map are the rows of the commands (R84). -/
theorem mem_opcodeTable_iff (r : OpcodeRow) : r ∈ opcodeTable ↔ ∃ i : Instr, i.row = r := by
  constructor
  · intro h
    simp only [opcodeTable, List.mem_cons, List.not_mem_nil, or_false] at h
    obtain h | h | h | h | h | h | h | h | h | h := h <;> exact ⟨_, h.symm⟩
  · rintro ⟨i, rfl⟩
    exact row_mem_opcodeTable i

/-- Of the rows of the opcode map a word lies in one, the row of its command (R84). -/
theorem opcodeTable_filter_matches (w : Word) : opcodeTable.filter (·.matches w) = [(decode w).row] := by
  have hrow : ∀ r ∈ opcodeTable, r.matches w = (r == (decode w).row) := by
    intro r hr
    obtain ⟨i, rfl⟩ := (mem_opcodeTable_iff r).mp hr
    rw [Bool.eq_iff_iff, beq_iff_eq, row_matches_iff]
  have hnodup : opcodeTable.Nodup := by decide
  rw [List.filter_congr hrow, List.filter_beq, List.count_eq_one_of_mem hnodup (row_mem_opcodeTable _),
    List.replicate_one]

/-- The operands of a decoded command are the fields of its word (R87). -/
theorem decode_withOperandsOf (w : Word) : (decode w).withOperandsOf w = decode w :=
  (decode_of_matches (decode_row_matches w)).symm

theorem decode_wf (w : Word) : (decode w).wf = true := by
  rw [← decode_withOperandsOf]
  exact wf_withOperandsOf (decode_row_matches w)

/-- A well-formed command's word lies in the command's row (R84). -/
theorem encode_matches (h : i.wf = true) : i.row.matches (encode i) = true := by
  cases i with
  | nop => exact Laws.EncodesInItsRow.nop h
  | sweep => exact Laws.EncodesInItsRow.sweep h
  | addr slot => exact Laws.EncodesInItsRow.addr slot h
  | play len slot pat => exact Laws.EncodesInItsRow.play len slot pat h
  | waitSettle => exact Laws.EncodesInItsRow.waitSettle h
  | waitChar => exact Laws.EncodesInItsRow.waitChar h
  | illegalWait v => exact Laws.EncodesInItsRow.illegalWait v h
  | illegalOp5 v => exact Laws.EncodesInItsRow.illegalOp5 v h
  | illegalOp67 v => exact Laws.EncodesInItsRow.illegalOp67 v h
  | illegalOp8F v => exact Laws.EncodesInItsRow.illegalOp8F v h

/-- The word of a command holds the command's operands in their fields (R84, R88). -/
theorem withOperandsOf_encode (i : Instr) : i.withOperandsOf (encode i) = i := by
  cases i with
  | addr slot => rw [Instr.withOperandsOf, encode, slotField_append]
  | play len slot pat => rw [Instr.withOperandsOf, encode, lenField_append, slotField_append, patField_append]
  | _ => rfl

end Sys2Proof
end

section
/-!
PROOF. The bits that a word's command uses (R85): they determine the row and every operand that the command runs on.
-/

namespace Sys2Proof.Machine

open Sys2Proof.Statements

variable {w w' : Word} {i : Instr}

/-- The bits of its word that a command uses: the row's fixed bits and its fields, where a `PLAY` with `LEN ≠ 6` uses `LEN`
alone (R84, R85). -/
def usedMask : Instr → Word
  | .nop => 0xF000#16
  | .sweep => 0xF000#16
  | .addr _ => 0xF1C0#16
  | .play len _ _ => if len = 6#3 then 0xFFFF#16 else 0xFE00#16
  | .waitSettle => 0xF003#16
  | .waitChar => 0xF003#16
  | .illegalWait _ => 0xF002#16
  | .illegalOp5 _ => 0xF000#16
  | .illegalOp67 _ => 0xE000#16
  | .illegalOp8F _ => 0x8000#16

/-- The used bits of a word, from its fields (R81, R85). -/
theorem usedBits_eq (w : Word) :
    usedBits w =
      if w.opField = 0x2#4 then 0xF1C0#16
      else if w.opField = 0x3#4 then if w.lenField = 6#3 then 0xFFFF#16 else 0xFE00#16
      else if w.opField = 0x4#4 then if w.wselField.getLsbD 1 then 0xF002#16 else 0xF003#16
      else if w.opField = 0x6#4 ∨ w.opField = 0x7#4 then 0xE000#16
      else if 0x8#4 ≤ w.opField then 0x8000#16
      else 0xF000#16 := by
  have hop : (w >>> 12).toNat = w.opField.toNat := by
    rw [Word.opField, BitVec.toNat_ushiftRight, BitVec.extractLsb'_toNat]; omega
  have hwsel : w.wselField.getLsbD 1 = w.getLsbD 1 := by simp [Word.wselField]
  rw [hwsel]
  simp only [usedBits, hop, BitVec.toNat_eq, BitVec.le_def]
  rfl

/-- The used bits of a word of a row are those of the row's command with the word's operands (R85). -/
theorem usedBits_of_matches (h : i.row.matches w = true) : usedBits w = usedMask (i.withOperandsOf w) := by
  rw [row_matches_eq] at h
  rw [usedBits_eq]
  generalize w.opField = op at h
  generalize w.wselField = wsel at h
  cases i with
  | illegalOp8F v =>
    have hop : 0x8#4 ≤ op := of_decide_eq_true h
    simp [opcode_ne_of_ge hop, hop, Instr.withOperandsOf, usedMask]
  | illegalOp67 v =>
    obtain hop | hop := of_decide_eq_true h <;> simp [hop, Instr.withOperandsOf, usedMask]
  | illegalWait v =>
    obtain ⟨hop, h0, h1⟩ := of_decide_eq_true h
    have hbit : ∀ k : BitVec 2, k ≠ 0#2 → k ≠ 1#2 → k.getLsbD 1 = true := by decide
    simp [hop, hbit wsel h0 h1, Instr.withOperandsOf, usedMask]
  | _ => simp [of_decide_eq_true h, Instr.withOperandsOf, usedMask]

theorem usedBits_eq_usedMask (w : Word) : usedBits w = usedMask (decode w) := by
  rw [usedBits_of_matches (decode_row_matches w), decode_withOperandsOf]

/-- The used bits take in all that a command's row fixes (R84, R85). -/
theorem usedMask_and_rowMask (i : Instr) : usedMask i &&& i.row.mask = i.row.mask := by
  cases i with
  | play len slot pat => simp only [usedMask, Instr.row]; split <;> decide
  | _ => simp only [usedMask, Instr.row]; decide

/-- Words that agree on a command's used bits lie both in the command's row or both outside it (R84, R85). -/
theorem matches_congr (h : w &&& usedMask i = w' &&& usedMask i) : i.row.matches w = i.row.matches w' := by
  have hmask : w &&& i.row.mask = w' &&& i.row.mask := by
    rw [← usedMask_and_rowMask, ← BitVec.and_assoc, ← BitVec.and_assoc, h]
  rw [OpcodeRow.matches, OpcodeRow.matches, Word.inRow, Word.inRow, hmask]

/-- Words that agree on a mask agree on every field that lies in the mask. -/
theorem field_congr {m : Word} {lo n : Nat} (h : w &&& m = w' &&& m) (hm : m.extractLsb' lo n = BitVec.allOnes n) :
    w.extractLsb' lo n = w'.extractLsb' lo n := by
  rw [← BitVec.and_allOnes (x := w.extractLsb' lo n), ← BitVec.and_allOnes (x := w'.extractLsb' lo n), ← hm,
    ← BitVec.extractLsb'_and, ← BitVec.extractLsb'_and, h]

/-- A malformed `PLAY` runs the same for every `SLOT` and `PAT` (R85, R142). -/
theorem exec_play_malformed {len : BitVec 3} (hlen : len ≠ 6#3) (slot slot' : Slot) (pat pat' : Pattern) (s : State) :
    exec (.play len slot pat) s = exec (.play len slot' pat') s := by
  simp [exec_eq, isReserved, phasesOf, playPhases, hlen]

/-- A command with the operands of `w` runs the same with those of a word that agrees with `w` on the bits that the command
uses (R85). -/
theorem exec_withOperandsOf_congr (hi : i.withOperandsOf w = i) (h : w &&& usedMask i = w' &&& usedMask i) (s : State) :
    exec i s = exec (i.withOperandsOf w') s := by
  cases i with
  | addr slot =>
    have hslot : w.slotField = w'.slotField := field_congr (m := 0xF1C0#16) h (by decide)
    rw [← hi, Instr.withOperandsOf, Instr.withOperandsOf, hslot]
  | play len slot pat =>
    by_cases hlen : len = 6#3
    · have hmask : usedMask (.play len slot pat) = BitVec.allOnes 16 := if_pos hlen
      rw [hmask, BitVec.and_allOnes, BitVec.and_allOnes] at h
      rw [← h, hi]
    · have hmask : usedMask (.play len slot pat) = 0xFE00#16 := if_neg hlen
      have hw : w.lenField = w'.lenField := field_congr (hmask ▸ h) (by decide)
      injection hi with hl
      rw [Instr.withOperandsOf, ← hw, hl]
      exact exec_play_malformed hlen _ _ _ _ s
  | _ => rfl

/-- Words that agree on the bits the first one's command uses run the same (R85). -/
theorem exec_decode_congr (h : w &&& usedBits w = w' &&& usedBits w) (s : State) :
    exec (decode w) s = exec (decode w') s := by
  rw [usedBits_eq_usedMask] at h
  have hrow : (decode w).row.matches w' = true := (matches_congr h).symm.trans (decode_row_matches w)
  rw [decode_of_matches hrow]
  exact exec_withOperandsOf_congr (decode_withOperandsOf w) h s

/-- The encoder writes the bits marked `x` as 0 (R85, R88). -/
theorem encode_unnamed_bits (i : Instr) : encode i &&& ~~~namedBits i = 0#16 := by
  cases i with
  | nop => rfl
  | sweep => rfl
  | waitSettle => rfl
  | waitChar => rfl
  | addr slot => revert slot; decide
  | _ => simp [namedBits]

end Sys2Proof.Machine
end

section
/-!
PROOF. The two words that address a slot without pulsing a dot (R90, R144), and words as their fields shifted into place
(R81, R88).
-/

namespace Sys2Proof

/-- The word of `PLAY` as its shifted fields (R81, R88). -/
theorem encode_play (len : BitVec 3) (slot : Slot) (pat : Pattern) :
    encode (.play len slot pat) =
      0x3000#16 ||| (len.setWidth 16 <<< 9) ||| (slot.setWidth 16 <<< 6) ||| pat.setWidth 16 :=
  (BitVec.setWidth_eq _).symm.trans BitVec.setWidth_append_append_append_eq_shiftLeft_setWidth_or

/-- The word of a well-formed `PLAY`, whose `LEN` is 6 (R141). -/
theorem encode_play_six (slot : Slot) (pat : Pattern) :
    encode (.play 6#3 slot pat) = 0x3C00#16 ||| (slot.setWidth 16 <<< 6) ||| pat.setWidth 16 :=
  encode_play 6#3 slot pat

/-- The word of an empty `PLAY` (R90). -/
theorem encode_play_empty (slot : Slot) : encode (.play 6#3 slot 0#6) = 0x3C00#16 ||| (slot.setWidth 16 <<< 6) :=
  (encode_play_six slot 0#6).trans BitVec.or_zero

/-- The word of `ADDR` as its shifted slot (R81, R88). -/
theorem encode_addr (slot : Slot) : encode (.addr slot) = 0x2000#16 ||| (slot.setWidth 16 <<< 6) := by
  revert slot; decide

/-- `PLAY` and `ADDR` are different words, whatever their operands (R84, R90). -/
theorem encode_play_ne_addr (len : BitVec 3) (slot slot' : Slot) (pat : Pattern) :
    encode (.play len slot pat) ≠ encode (.addr slot') := by
  intro h
  have hop := congrArg Word.opField h
  rw [encode, encode, opField_append, opField_append] at hop
  exact absurd hop (by decide)

end Sys2Proof
end

section
/-!
PROOF. The assembler: the word of a line whose operands are in range, the line rejected otherwise, and dot sets
(R10, R88, R89; log 21).
-/

namespace Sys2Proof.Machine

variable {cfg : Config} {s p n : Nat} {c : Byte} {pat : Pattern}

/-- The word of `PLAY` from its operands as numbers (R88). -/
theorem assemblePlay_eq (hs : s ≤ 7) (hp : p ≤ 63) (hn : n ≤ 7) : assemblePlay s p n =
    some (0x3000#16 ||| (BitVec.ofNat 16 n <<< 9) ||| (BitVec.ofNat 16 s <<< 6) ||| BitVec.ofNat 16 p) := by
  rw [assemblePlay, if_pos ⟨hs, hp, hn⟩, encode_play]
  simp (disch := omega) only [BitVec.setWidth_ofNat_of_le_of_lt]

/-- The word of a well-formed `PLAY` from its slot as a number (R88, R89). -/
theorem assemblePlay_six (hs : s ≤ 7) (pat : Pattern) : assemblePlay s pat.toNat 6 =
    some (0x3C00#16 ||| (BitVec.ofNat 16 s <<< 6) ||| pat.setWidth 16) := by
  rw [assemblePlay_eq hs (by omega) (by omega), BitVec.ofNat_toNat]
  rfl

/-- `PLAY` with an operand out of range is rejected (log 21). -/
theorem assemblePlay_none (h : 7 < s ∨ 63 < p ∨ 7 < n) : assemblePlay s p n = none :=
  if_neg (by omega)

/-- The word of `ADDR` from its slot as a number (R88). -/
theorem assembleAddr_eq (hs : s ≤ 7) : assembleAddr s = some (0x2000#16 ||| (BitVec.ofNat 16 s <<< 6)) := by
  rw [assembleAddr, if_pos hs, encode_addr]
  simp (disch := omega) only [BitVec.setWidth_ofNat_of_le_of_lt]

/-- `ADDR` with a slot out of range is rejected (R88). -/
theorem assembleAddr_none (hs : 7 < s) : assembleAddr s = none := if_neg (by omega)

/-- `CHAR` of a character with a pattern is its `PLAY` (R89). -/
theorem assemble_char_of_some (h : lookup cfg c = some pat) :
    assemble cfg (.char s c) = assemblePlay s pat.toNat 6 := by
  rw [assemble, h]

/-- `CHAR` of an unmapped character is `ADDR` (R89). -/
theorem assemble_char_of_none (h : lookup cfg c = none) : assemble cfg (.char s c) = assembleAddr s := by
  rw [assemble, h]

/-! ### Dot sets -/

theorem dotSet_cons {d : Nat} (hd : 1 ≤ d ∧ d ≤ 6) (ds : List Nat) :
    dotSet (d :: ds) = (dotSet ds).map (· ||| (1#6 <<< (d - 1))) := if_pos hd

/-- The bit of one dot (R10). -/
theorem getLsbD_dot {d : Nat} (hd : 1 ≤ d ∧ d ≤ 6) (p : Position) :
    (1#6 <<< (d - 1)).getLsbD p.val = true ↔ p.val + 1 = d := by
  have hp := p.isLt
  simp only [BitVec.getLsbD_shiftLeft, BitVec.getLsbD_one, Bool.and_eq_true, Bool.not_eq_true', decide_eq_true_eq,
    decide_eq_false_iff_not]
  omega

/-- A dot set of dot numbers is the pattern with exactly its dots (R10, R88). -/
theorem dotSet_dots (ds : List Nat) (h : ∀ d ∈ ds, 1 ≤ d ∧ d ≤ 6) : ∃ pat : Pattern, dotSet ds = some pat ∧
    ∀ p : Position, (pat.getLsbD p.val = true ↔ p.val + 1 ∈ ds) := by
  induction ds with
  | nil => exact ⟨0#6, rfl, by simp⟩
  | cons d ds ih =>
    obtain ⟨hd, hds⟩ := List.forall_mem_cons.mp h
    obtain ⟨pat, hpat, hbits⟩ := ih hds
    refine ⟨pat ||| (1#6 <<< (d - 1)), by rw [dotSet_cons hd, hpat]; rfl, fun p => ?_⟩
    rw [BitVec.getLsbD_or, Bool.or_eq_true, hbits, getLsbD_dot hd, List.mem_cons, or_comm]

/-- A dot set with a number that is no dot is rejected (log 21). -/
theorem dotSet_none (ds : List Nat) (h : ∃ d ∈ ds, d < 1 ∨ 6 < d) : dotSet ds = none := by
  induction ds with
  | nil => simp at h
  | cons e ds ih =>
    obtain ⟨d, hd, hbad⟩ := h
    by_cases he : 1 ≤ e ∧ e ≤ 6
    · obtain rfl | hd := List.mem_cons.mp hd
      · omega
      · rw [dotSet_cons he, ih ⟨d, hd, hbad⟩]
        rfl
    · exact if_neg he

end Sys2Proof.Machine
end

section
/-!
PROOF. The statements about the opcode map, the decoder, the encoder and the assembler.
-/

namespace Sys2Proof.Proofs

open Sys2Proof.Machine Sys2Proof.Statements

/-- Settles O1: the word lies in the command's row, which gives that command with the operands in the word's fields. -/
theorem decodeOfEncodeIsIdentity : Obligations.DecodeOfEncodeIsIdentity := fun i hi =>
  (decode_of_matches (encode_matches hi)).trans (withOperandsOf_encode i)

/-- Settles O2: a word lies in a row exactly when it is the row of its command, and the map holds that row once. -/
theorem opcodeMapPartitionsAllWords : Obligations.OpcodeMapPartitionsAllWords := by
  refine ⟨rfl, fun slot w h => ?_, fun len slot pat w h => ?_, fun w => ⟨?_, decode_wf w⟩⟩
  · have hw := decode_withOperandsOf w
    rw [h] at hw
    injection hw with hslot
    exact hslot.symm
  · have hw := decode_withOperandsOf w
    rw [h] at hw
    injection hw with hlen hslot hpat
    exact ⟨hlen.symm, hslot.symm, hpat.symm⟩
  · exact opcodeTable_filter_matches w

/-- Settles O3: the used bits determine the row and the operands that the command runs on. -/
theorem ignoredBitsHaveNoEffect : Obligations.IgnoredBitsHaveNoEffect :=
  ⟨fun _ _ s h => exec_decode_congr h s, encode_unnamed_bits⟩

/-- Settles O18: the two phase lists are the same by definition; the words differ in their opcode, and `CMD` holds the
word. -/
theorem emptyPlayIsAddr : Obligations.EmptyPlayIsAddr := by
  refine fun slot s => ⟨rfl, rfl, rfl, encode_play_empty slot, encode_addr slot, fun t u ht hu => ?_⟩
  rw [readReg_cmd, readReg_cmd, cmd_of_accept ht, cmd_of_accept hu]
  exact encode_play_ne_addr 6#3 slot slot 0#6

/-- Settles O54: every pseudo-command is a `PLAY` or an `ADDR`, whose words and ranges are known; dot sets by induction. -/
theorem assemblerWords : Obligations.AssemblerWords := by
  refine ⟨fun cfg s p n c => ⟨⟨rfl, rfl, rfl, rfl⟩, assembleAddr_eq, fun hs hp => assemblePlay_eq hs hp (by decide),
    assemblePlay_eq, fun w => ?_, fun hs => ?_, fun hs => assemblePlay_six hs _, fun hs => ?_, fun hs => ?_,
    fun hp => assemblePlay_none (.inr (.inl hp)), fun hn => assemblePlay_none (.inr (.inr hn)),
    fun hn => if_neg (by omega)⟩, rfl, dotSet_dots, dotSet_none⟩
  · rw [assemble, if_pos w.isLt, BitVec.ofNat_toNat, BitVec.setWidth_eq]
  · exact (assemblePlay_six hs 0#6).trans (congrArg some BitVec.or_zero)
  · cases hc : lookup cfg c with
    | some pat => exact (assemble_char_of_some hc).trans (assemblePlay_six hs pat)
    | none => exact (assemble_char_of_none hc).trans (assembleAddr_eq hs)
  · refine ⟨assembleAddr_none hs, assemblePlay_none (.inl hs), assemblePlay_none (.inl hs),
      assemblePlay_none (.inl hs), ?_⟩
    cases hc : lookup cfg c with
    | some pat => exact (assemble_char_of_some hc).trans (assemblePlay_none (.inl hs))
    | none => exact (assemble_char_of_none hc).trans (assembleAddr_none hs)

/-- Settles O4: the decoder evaluated on each word. -/
theorem decodesWordsWrittenOut : Obligations.DecodesWordsWrittenOut := by
  unfold Obligations.DecodesWordsWrittenOut
  decide

end Sys2Proof.Proofs
end

section
/-!
PROOF. The value of `LINES` as a number (R27, R105), and the pulse code of a dot position as a number (R102, R104).
-/

namespace Sys2Proof.Machine

/-- The word of `LINES` as its shifted fields (R105). -/
theorem linesWord_eq_fields (s : State) :
    s.linesWord = (s.pul.setWidth 16 <<< 5) ||| (s.sel.setWidth 16 <<< 2) ||| ((~~~s.mode.bit).setWidth 16 <<< 1) |||
      s.mode.bit.setWidth 16 := by
  have hpul : (0#8 ++ s.pul).setWidth 16 = s.pul.setWidth 16 := by
    rw [BitVec.setWidth_append_eq_shiftLeft_setWidth_or, BitVec.setWidth_zero, BitVec.zero_shiftLeft, BitVec.zero_or]
  rw [← hpul]
  exact (BitVec.setWidth_eq _).symm.trans BitVec.setWidth_append_append_append_eq_shiftLeft_setWidth_or

/-- The two latch bits of `LINES` as a number: the set line in address mode, the reset line in sweep mode (R105). -/
theorem Mode.latchBits_eq (m : Mode) :
    ((~~~m.bit).setWidth 16 <<< 1) ||| m.bit.setWidth 16 = if m = .address then 0x01#16 else 0x02#16 := by
  cases m <;> rfl

/-- The value of `LINES` as a number, from the pulse lines, the select lines and the mode (R105). -/
theorem linesWord_eq (s : State) :
    s.linesWord = (s.pul.setWidth 16 <<< 5) ||| (s.sel.setWidth 16 <<< 2) |||
      (if s.mode = .address then 0x01#16 else 0x02#16) := by
  rw [linesWord_eq_fields, BitVec.or_assoc, Mode.latchBits_eq]

/-- The pulse code is one more than the dot position (R104). -/
theorem pulseCode_toNat (p : Position) : (pulseCode p).toNat = p.val + 1 := by
  revert p; decide

/-- No dot position has the code `000` of idle pulse lines (R103). -/
theorem pulseCode_ne_zero (p : Position) : pulseCode p ≠ 0b000#3 := by
  have hp := pulseCode_toNat p
  bv_omega

/-- No dot position has the code `111`, which would be a seventh position's (R102). -/
theorem pulseCode_ne_seven (p : Position) : pulseCode p ≠ 0b111#3 := by
  have hp := pulseCode_toNat p
  bv_omega

end Sys2Proof.Machine
end

section
/-!
PROOF. The statements about the address encoder: the value of `LINES` and the tables.
-/

namespace Sys2Proof.Proofs

open Sys2Proof.Machine Sys2Proof.Statements

/-- Settles O21: both modes are the general value, with the operands of `OR` in the other order. -/
theorem linesValueInEachMode : Obligations.LinesValueInEachMode := by
  refine fun s => ⟨linesWord_eq s, fun slot hmode hsel hpul => ?_, fun slot p hmode hsel hpul => ?_⟩
  · rw [readReg_lines, linesWord_eq, hmode, hsel, hpul, selCode, if_pos rfl, BitVec.setWidth_zero,
      BitVec.zero_shiftLeft, BitVec.zero_or, BitVec.or_comm]
  · rw [readReg_lines, linesWord_eq, hmode, hsel, hpul, selCode, if_neg Mode.noConfusion, BitVec.or_comm,
      BitVec.or_assoc, BitVec.or_comm (slot.setWidth 16 <<< 2)]

/-- Settles O42: the tables by definition; the two codes that no position has, from the code as a number. -/
theorem encoderTables : Obligations.EncoderTables :=
  ⟨fun _ => rfl, rfl, fun p => ⟨pulseCode_ne_zero p, pulseCode_ne_seven p, pulseCode_toNat p⟩⟩

end Sys2Proof.Proofs
end

section
/-!
PROOF. Which command a word is, seen from its fields (R81, R84), and acceptance as one state (R121, R155).
-/

namespace Sys2Proof.Machine

open Sys2Proof.Statements

variable {w : Word} {i : Instr}

/-! ### The command of a word, from its fields -/

/-- The decoder reads a word whose opcode and `WSEL` are those of a command's row as that command (R84, R87). -/
theorem decode_of_rowFields (h : i.rowFields w.opField w.wselField = true) : decode w = i.withOperandsOf w :=
  decode_of_matches ((row_matches_eq i w).trans h)

theorem decode_nop (h : w.extractLsb' 12 4 = 0x0#4) : decode w = .nop :=
  decode_of_rowFields (i := .nop) (decide_eq_true h)

theorem decode_sweep (h : w.extractLsb' 12 4 = 0x1#4) : decode w = .sweep :=
  decode_of_rowFields (i := .sweep) (decide_eq_true h)

theorem decode_addr (h : w.extractLsb' 12 4 = 0x2#4) : decode w = .addr (w.extractLsb' 6 3) :=
  decode_of_rowFields (i := .addr 0#3) (decide_eq_true h)

theorem decode_play (h : w.extractLsb' 12 4 = 0x3#4) :
    decode w = .play (w.extractLsb' 9 3) (w.extractLsb' 6 3) (w.extractLsb' 0 6) :=
  decode_of_rowFields (i := .play 0#3 0#3 0#6) (decide_eq_true h)

theorem decode_waitSettle (h : w.extractLsb' 12 4 = 0x4#4) (hw : w.extractLsb' 0 2 = 0#2) : decode w = .waitSettle :=
  decode_of_rowFields (i := .waitSettle) (decide_eq_true ⟨h, hw⟩)

theorem decode_waitChar (h : w.extractLsb' 12 4 = 0x4#4) (hw : w.extractLsb' 0 2 = 1#2) : decode w = .waitChar :=
  decode_of_rowFields (i := .waitChar) (decide_eq_true ⟨h, hw⟩)

/-- The reserved rows are those of the opcodes from 5 on and of `WAIT` with `WSEL` 2 or 3 (R84, R155). -/
theorem isReserved_iff_of_rowFields {op : BitVec 4} {wsel : BitVec 2} (h : i.rowFields op wsel = true) :
    isReserved i = true ↔ (0x5#4 ≤ op ∨ op = 0x4#4 ∧ 2#2 ≤ wsel) := by
  -- in each row, a fact about the sixteen opcodes and the four values of `WSEL`
  cases i <;> simp only [Instr.rowFields, isReserved] at h ⊢ <;> revert op wsel <;> decide

theorem isReserved_decode_iff (w : Word) :
    isReserved (decode w) = true ↔ (0x5#4 ≤ w.extractLsb' 12 4 ∨ w.extractLsb' 12 4 = 0x4#4 ∧ 2#2 ≤ w.extractLsb' 0 2) :=
  isReserved_iff_of_rowFields ((row_matches_eq _ w).symm.trans (decode_row_matches w))

/-! ### Acceptance as one state -/

/-- What every meaning does: the command's phases are taken up, with `ERR_ILLEGAL` set for a reserved one (R121, R155). -/
theorem exec_eq_accepted (i : Instr) (s : State) :
    exec i s = .next (accepted { s with errIllegal := s.errIllegal || isReserved i } (phasesOf i s.timing)) := by
  rw [exec_eq]
  cases hr : isReserved i with
  | true => rw [phasesOf_reserved hr, Bool.or_true]; rfl
  | false => rw [Bool.or_false]; rfl

/-- An accepted `CMD` write is the meaning of the decoded word where `CMD` holds the word (R25, R121). -/
theorem accept_eq_exec (s : State) (h : decode w = i) : s.accept w = exec i { s with cmd := w } := by
  rw [State.accept, h]
  rfl

/-- A `PLAY` whose `LEN` is not 6 has no phase (R142). -/
theorem playPhases_malformed {len : BitVec 3} (hlen : len ≠ 6#3) (slot : Slot) (pat : Pattern) (T : Timing) :
    playPhases len slot pat T = [] := if_neg hlen

theorem exec_play_malformed_eq {len : BitVec 3} (hlen : len ≠ 6#3) (slot : Slot) (pat : Pattern) (s : State) :
    exec (.play len slot pat) s = .next (accepted s []) := by
  rw [← playPhases_malformed hlen slot pat s.timing]
  rfl

/-- Of the offsets, `STATUS` alone shows more than the lines, `CMD`, `CUR` and the timing registers (R24 to R30). -/
theorem readReg_congr {s t : State} {n : Offset} (hn : n ≠ 0x1#4) (hmode : t.mode = s.mode) (hsel : t.sel = s.sel)
    (hpul : t.pul = s.pul) (hcmd : t.cmd = s.cmd) (hcur : t.cur = s.cur) (htiming : t.timing = s.timing) :
    t.readReg n = s.readReg n := by
  simp only [State.readReg, State.linesWord, if_neg hn, hmode, hsel, hpul, hcmd, hcur, htiming]

/-! ### A command run to its end -/

/-- Under a silent host an accepted phase list is performed, and then the block is idle (R122, R241). -/
theorem takes_to_end {s : State} (hs : Silent s) (ps : List Phase) :
    Takes (1 + (ps.map fun p => cycles p.hold).sum) (accepted s ps) (idleAgain (s.applyPhases ps)) :=
  runs_to_end hs ps

/-- A command without a phase completes at the next edge (R122). -/
theorem takes_no_phase {s : State} (hs : Silent s) : Takes 1 (accepted s []) (idleAgain s) := takes_to_end hs []

/-- No phase looks at `ERR_ILLEGAL` (R122). -/
theorem applyPhases_withErrIllegal (s : State) (b : Bool) (ps : List Phase) :
    State.applyPhases ps { s with errIllegal := b } = { s.applyPhases ps with errIllegal := b } := by
  induction ps generalizing s with
  | nil => rfl
  | cons p ps ih => exact ih (s.applyPhase p)

/-- While its phase is held, an accepted command is busy (R241). -/
theorem takes_busy_in_phase {s : State} (hs : Silent s) {ps : List Phase} {k j : Nat} {p : Phase} (hp : ps[k]? = some p)
    (hj : j < cycles p.hold) :
    ∃ t, Takes (1 + ((ps.take k).map fun q => cycles q.hold).sum + j) (accepted s ps) t ∧ t.busy = true := by
  have hsil : (inPhase clk ps k p.hold s).host.script = [] := by simpa [inPhase] using hs
  exact ⟨_, runs_trans (runs_to_phase hs hp) (runs_hold hsil rfl rfl hj), rfl⟩

end Sys2Proof.Machine
end

section
/-!
PROOF. The sweep's phases by their index (R131), the millisecond trace of a phase list (R120, R122, R240) and of the sweep
(R132), and the pulses of `PLAY`: the levels of each dot and the number of phases (R141 to R146).
-/

namespace Sys2Proof.Machine

open Sys2Proof.Statements

variable {s : State} {T : Timing} {p : Phase} {n k : Nat}

/-! ### The sweep's phases by their index -/

/-- Where every inner list has `n` elements, element `n * k + j` of the outer one is the `j`-th of the `k`-th. -/
theorem getElem?_flatMap_of_length {α β : Type} {f : α → List β} {j : Nat} (hf : ∀ a, (f a).length = n) (hj : j < n)
    (l : List α) (k : Nat) : (l.flatMap f)[n * k + j]? = l[k]?.bind fun a => (f a)[j]? := by
  induction l generalizing k with
  | nil => simp
  | cons a l ih =>
    rw [List.flatMap_cons]
    cases k with
    | zero => simp [List.getElem?_append_left, hf, hj]
    | succ k =>
      rw [List.getElem?_append_right (by rw [hf, Nat.mul_succ]; omega), hf, List.getElem?_cons_succ, ← ih k]
      congr 1
      rw [Nat.mul_succ]
      omega

/-- Step `(k, p)` of the sweep stands at index `6k + p` (R131). -/
theorem sweepPhases_step (T : Timing) (hk : k < 8) (p : Position) :
    (sweepPhases T)[6 * k + p.val]? = some (sweepPhase T (BitVec.ofNat 3 k) p) := by
  have hslot : allSlots[k]? = some (BitVec.ofNat 3 k) := by decide +revert
  have hpos : allPositions[p.val]? = some p := by decide +revert
  have hlen (slot : Slot) : (allPositions.map fun p => sweepPhase T slot p).length = 6 := rfl
  have hstep : (allSlots.flatMap fun slot => allPositions.map fun p => sweepPhase T slot p)[6 * k + p.val]? =
      some (sweepPhase T (BitVec.ofNat 3 k) p) := by
    rw [getElem?_flatMap_of_length hlen p.isLt, hslot, Option.bind_some, List.getElem?_map, hpos, Option.map_some]
  have hin := (List.getElem?_eq_some_iff.mp hstep).1
  rw [sweepPhases, List.getElem?_append_left hin, hstep]

/-- The last phase of the sweep sets the pulse lines idle (R131). -/
theorem sweepPhases_last (T : Timing) : (sweepPhases T)[48]? = some { lines := LineSet.pul 0#3, hold := 0#16 } := rfl

/-- Slot code `k` is slot 0 for `k = 0` alone (R100). -/
theorem ofNat_slot_eq_zero_iff (hk : k < 8) : BitVec.ofNat 3 k = 0#3 ↔ k = 0 := by
  decide +revert

/-- The holds of the sweep: 48 steps, and none for the idle pulse lines at the end (R131). -/
theorem sweepPhases_holds (T : Timing) :
    (sweepPhases T).map (fun p => p.hold.toNat) = List.replicate 48 T.sweepStep.toNat ++ [0] := rfl

/-! ### The trace of a phase list -/

/-- Entry `k` of a trace: when the phases before it have been held, the levels that the phases up to it make (R240). -/
theorem phaseTrace_getElem? (ps : List Phase) (t : Nat) (s : State) (k : Nat) :
    (phaseTrace t s ps)[k]? = ps[k]?.map fun p =>
      ⟨t + duration (ps.take k), (s.applyPhases (ps.take (k + 1))).linesWord, p.hold.toNat⟩ := by
  induction ps generalizing t s k with
  | nil => simp [phaseTrace]
  | cons p ps ih =>
    cases k with
    | zero => rfl
    | succ k =>
      rw [phaseTrace, List.getElem?_cons_succ, ih, List.getElem?_cons_succ]
      simp [duration, Nat.add_assoc]

/-- Entry `k` of a command's trace (R240). -/
theorem commandTrace_getElem? (s : State) (i : Instr) (k : Nat) :
    (commandTrace s i)[k]? = (phasesOf i s.timing)[k]?.map fun p =>
      ⟨duration ((phasesOf i s.timing).take k), (s.applyPhases ((phasesOf i s.timing).take (k + 1))).linesWord,
        p.hold.toNat⟩ := by
  rw [commandTrace, phaseTrace_getElem?]
  simp only [Nat.zero_add]

/-! ### The trace of the sweep -/

/-- The first `n` steps of the sweep take `n` times `T_SWEEP_STEP` (R132). -/
theorem duration_take_sweep (T : Timing) (hn : n ≤ 48) : duration ((sweepPhases T).take n) = n * T.sweepStep.toNat := by
  rw [duration, List.map_take, sweepPhases_holds, List.take_append_of_le_length (by simpa using hn),
    List.take_replicate, Nat.min_eq_left hn, List.sum_replicate, smul_eq_mul]

/-- From its first phase on the sweep is in sweep mode (R131). -/
theorem applyPhases_take_sweep_mode (s : State) (T : Timing) (n : Nat) :
    (s.applyPhases ((sweepPhases T).take (n + 1))).mode = .sweep := by
  obtain ⟨hmode, -⟩ := applyPhases_outputs ((sweepPhases T).take (n + 1)) s
  have hcons : sweepPhases T = sweepPhase T 0#3 0 :: (sweepPhases T).tail := rfl
  rw [hcons, List.take_succ_cons, lastOf_head _ fun q hq => (sweepPhases_tail (List.mem_of_mem_take hq)).1] at hmode
  rw [hcons, List.take_succ_cons, hmode]
  rfl

/-- The levels of a sweep step: its codes alone, in sweep mode (R105, R132). -/
theorem linesWord_sweep_step (s : State) (T : Timing) (hk : k < 8) (p : Position) :
    (s.applyPhases ((sweepPhases T).take (6 * k + p.val + 1))).linesWord =
      0x02#16 ||| (BitVec.ofNat 16 k <<< 2) ||| ((pulseCode p).setWidth 16 <<< 5) := by
  have hmode := applyPhases_take_sweep_mode s T (6 * k + p.val)
  have hslot : (BitVec.ofNat 3 k).setWidth 16 = BitVec.ofNat 16 k :=
    BitVec.setWidth_ofNat_of_le_of_lt (by decide) hk
  rw [applyPhases_take_succ (sweepPhases_step T hk p)] at hmode ⊢
  have hsel (u : State) : (u.applyPhase (sweepPhase T (BitVec.ofNat 3 k) p)).sel = BitVec.ofNat 3 k := rfl
  have hpul (u : State) : (u.applyPhase (sweepPhase T (BitVec.ofNat 3 k) p)).pul = pulseCode p :=
    applyLines_setPul u (pulseCode p)
  rw [linesWord_eq, hmode, hsel, hpul, hslot, if_neg Mode.noConfusion, BitVec.or_comm, BitVec.or_assoc,
    BitVec.or_comm (BitVec.ofNat 16 k <<< 2)]

/-- The levels at the end of the sweep: slot 7, idle pulse lines, sweep mode (R132). -/
theorem linesWord_sweep_end (s : State) (T : Timing) : (s.applyPhases (sweepPhases T)).linesWord = 0x1E#16 := by
  rw [applyPhases_sweep, linesWord_eq]
  simp

/-! ### The pulses of `PLAY` -/

/-- The levels of the pulse lines in the four phases of a dot, from idle ones: line C of the code, then its line B too, then
the whole code, then none (R145, R146). -/
theorem dotPhases_levels (T : Timing) (p : Position) (h : s.pul = 0#3) :
    ([1, 2, 3, 4].map fun k => (s.applyPhases ((dotPhases T p).take k)).pul) =
      [pulOfLines (pulseCode p)[2] false false, pulOfLines (pulseCode p)[2] (pulseCode p)[1] false, pulseCode p, 0#3] := by
  have hlast : (s.applyPhases ((dotPhases T p).take 4)).pul = 0#3 := applyPhases_dot_pul s p
  simp only [List.map_cons, List.map_nil, hlast]
  simp [dotPhases, h]

/-- A pattern has six positions (R10, R143). -/
theorem length_activeDots_le (pat : Pattern) : (activeDots pat).length ≤ 6 :=
  List.length_filter_le _ _

/-- The address entry, and four phases for each active dot (R141, R145). -/
theorem length_playPhases (slot : Slot) (pat : Pattern) (T : Timing) :
    (playPhases 6#3 slot pat T).length = 1 + 4 * (activeDots pat).length := by
  have h := sum_holds_play T (fun _ => 1) slot pat
  rw [List.map_const', List.sum_replicate, smul_eq_mul, Nat.mul_one] at h
  rw [h, Nat.mul_comm]
  rfl

end Sys2Proof.Machine
end

section
/-!
PROOF. Who writes the lines and `CUR`: of the commands `SWEEP`, `ADDR` and a well-formed `PLAY`, and of the parts of a step
the sequencer's edge alone (R124); and where a pulse code can be in sweep mode (R131, R141).
-/

namespace Sys2Proof.Machine

open Sys2Proof.Statements

variable {s t : State} {i : Instr} {T : Timing} {p : Phase}

/-! ### The commands that write -/

/-- The commands whose phases write a line or `CUR` (R124). -/
def WritesOutputs (i : Instr) : Prop :=
  i = .sweep ∨ (∃ slot, i = .addr slot) ∨ ∃ slot pat, i = .play 6#3 slot pat

/-- A phase of any other command is a pure hold (R150). -/
theorem writesOutputs_or_hold (h : p ∈ phasesOf i T) :
    WritesOutputs i ∨ p = { lines := {}, hold := p.hold } := by
  cases i with
  | sweep => exact .inl (.inl rfl)
  | addr slot => exact .inl (.inr (.inl ⟨slot, rfl⟩))
  | play len slot pat =>
    by_cases hlen : len = 6#3
    · exact .inl (.inr (.inr ⟨slot, pat, by rw [hlen]⟩))
    · rw [phasesOf, playPhases_malformed hlen] at h
      cases h
  | waitSettle => rw [List.mem_singleton.mp h]; exact .inr rfl
  | waitChar => rw [List.mem_singleton.mp h]; exact .inr rfl
  | _ => cases h

/-- In sweep mode a pulse code is on the lines only while a sweep runs: an address entry has left sweep mode, and the other
commands leave the pulse lines idle (R34, R141). -/
theorem sweep_of_pulse_in_sweep_mode (h : s.Inv) (hmode : s.mode = .sweep) (hpul : s.pul ≠ 0#3) :
    s.busy = true ∧ decode s.cmd = .sweep := by
  have hb : s.busy = true := by
    by_contra hb
    exact hpul (h.idle (eq_false_of_ne_true hb)).1
  have hhold : s.holdCnt ≠ 0 := fun h0 => hpul (h.pending hb h0).2
  have hprog := h.program hb
  obtain ⟨hin, happ⟩ := h.applied hb hhold
  obtain ⟨p, hfirst⟩ : ∃ p, s.seqPhases[0]? = some p := ⟨_, List.getElem?_eq_getElem (by omega)⟩
  have hhead : (phasesOf (decode s.cmd) s.timing)[0]? = some p := hprog ▸ hfirst
  refine ⟨hb, ?_⟩
  obtain ⟨hsweep, -⟩ | ⟨slot, pat, -, rfl⟩ | ⟨hwait, -⟩ := phasesOf_head hhead
  · exact hsweep
  · obtain ⟨-, hm⟩ := applied_first hprog happ hfirst
    rw [hmode] at hm
    cases hm
  · have hlen : s.seqPhases.length = 1 := by
      rw [hprog]
      obtain hw | hw := hwait <;> rw [hw] <;> rfl
    have hidle := applyPhases_pul (s := s.withIdlePulse) (decode s.cmd) s.timing rfl
    rw [List.take_of_length_le (by omega), hprog] at happ
    rw [happ] at hidle
    exact absurd hidle hpul

/-! ### The parts of a step that write -/

/-- What the lines and `CUR` hold (R21, R28). -/
def State.outputs (s : State) : Mode × Slot × Code × Cur := (s.mode, s.sel, s.pul, s.cur)

theorem outputs_ne_iff : t.outputs ≠ s.outputs ↔ t.mode ≠ s.mode ∨ t.sel ≠ s.sel ∨ t.pul ≠ s.pul ∨ t.cur ≠ s.cur := by
  simp only [State.outputs, ne_eq, Prod.mk.injEq, not_and_or]

/-- No host write writes a line or `CUR` (R27, R28, R121). -/
theorem writeReg_outputs {busy : Bool} {n : Offset} {v : Word} (hw : s.writeReg busy n v = .next t) :
    t.outputs = s.outputs := by
  obtain ⟨-, -, rfl⟩ | ⟨-, -, ha⟩ | ⟨-, rfl⟩ | ⟨-, -, rfl⟩ | ⟨-, -, rfl⟩ := writeReg_cases hw
  · rfl
  · obtain ⟨hmode, hsel, hpul, -, -, hcur, -⟩ := exec_frame ha
    rw [State.outputs, hmode, hsel, hpul, hcur]
    rfl
  · rfl
  · rfl
  · rfl

/-- Without reset an edge of the block writes the lines and `CUR` as its sequencer does (R124). -/
theorem clockEdge_outputs {cfg : Config} {pins : Pins} (hr : pins.rst = false) (hc : s.clockEdge cfg pins = .next t) :
    t.outputs = (s.sequencerEdge cfg.clkPerMs).outputs := by
  obtain ⟨hr', -⟩ | ⟨-, -, rfl⟩ | ⟨n, -, -, rfl⟩ | ⟨n, v, -, -, hw⟩ := clockEdge_cases hc
  · rw [hr] at hr'
    cases hr'
  · rfl
  · rfl
  · exact writeReg_outputs (s := (s.sequencerEdge cfg.clkPerMs).setRdata none) hw

/-- Without reset a step writes the lines and `CUR` as the sequencer's edge does (R124). -/
theorem step_outputs {turn : Turn} (hs : step s = .next t) (ht : s.host.turn Config.platform = .ok turn)
    (hr : turn.pins.rst = false) : t.outputs = (s.sequencerEdge clk).outputs := by
  obtain ⟨turn', u, ht', hc, rfl⟩ := step_next hs
  obtain rfl : turn = turn' := by simpa [ht] using ht'
  have hu := clockEdge_outputs hr hc
  rw [sequencerEdge_setHost] at hu
  obtain ⟨h, hpoll⟩ := settlePoll_block u
  split
  · rw [hpoll]
    exact hu
  · exact hu

/-- The sequencer's edge writes a line or `CUR` only where a phase of a command that writes them begins (R124). -/
theorem writesOutputs_of_sequencerEdge (h : s.Inv) {n : Nat} (hne : (s.sequencerEdge n).outputs ≠ s.outputs) :
    s.busy = true ∧ WritesOutputs (decode s.cmd) := by
  obtain ⟨-, e⟩ | ⟨-, -, e⟩ | ⟨p, hb, -, hp, e⟩ | ⟨-, -, -, e⟩ := sequencerEdge_cases n s <;> rw [e] at hne
  · exact absurd rfl hne
  · exact absurd rfl hne
  · rw [h.program hb] at hp
    obtain hw | hhold := writesOutputs_or_hold (List.mem_of_getElem? hp)
    · exact ⟨hb, hw⟩
    · rw [hhold, applyPhase_hold] at hne
      exact absurd rfl hne
  · exact absurd rfl hne

end Sys2Proof.Machine
end

section
/-!
PROOF. The statements about the command sequences: what each command takes up, how it runs to its end, how long that takes,
and who writes the lines.
-/

namespace Sys2Proof.Proofs

open Sys2Proof.Machine Sys2Proof.Statements

/-- Settles O13: acceptance takes up the phases, the run performs them, and no phase looks at `ERR_ILLEGAL`. -/
theorem commandRunsToCompletion : Obligations.CommandRunsToCompletion := by
  refine fun i s hs => ⟨_, exec_eq_accepted i s, ?_⟩
  rw [← applyPhases_withErrIllegal]
  exact takes_to_end (s := { s with errIllegal := s.errIllegal || isReserved i }) hs _

/-- Settles O12: the frame of the meanings, and what each offset shows. -/
theorem acceptanceFrame : Obligations.AcceptanceFrame := by
  intro i s t h
  obtain ⟨hmode, hsel, hpul, hcmd, herr, hcur, htiming, hrdata, hhost⟩ := exec_frame h
  obtain ⟨-, -, -, -, hillegal⟩ := exec_starts h
  exact ⟨hmode, hsel, hpul, hcmd, hcur, htiming, herr, hillegal, hrdata, hhost,
    fun n hn => readReg_congr hn hmode hsel hpul hcmd hcur htiming⟩

/-- Settles O10: the one phase is a pure hold, so the run is its cycles and changes nothing. -/
theorem waitHoldsTheLines : Obligations.WaitHoldsTheLines := by
  refine ⟨fun w h => ⟨decode_waitSettle h, decode_waitChar h⟩, fun s i d hi => ⟨?_, fun hs => ⟨fun j hj => ?_, ?_⟩⟩⟩
  · obtain ⟨rfl, rfl⟩ | ⟨rfl, rfl⟩ := hi <;> rfl
  · cases j with
    | zero => exact ⟨_, rfl, rfl⟩
    | succ j =>
      obtain ⟨t, ht, hb⟩ := takes_busy_in_phase (ps := [{ lines := {}, hold := d }]) (k := 0) hs rfl hj
      exact ⟨t, by rw [Nat.add_comm]; exact ht, hb⟩
  · have hrun := takes_to_end hs [{ lines := {}, hold := d }]
    rwa [applyPhases_cons, applyPhase_hold, applyPhases_nil] at hrun

/-- Settles O11: a reserved command has no phase, and its acceptance sets `ERR_ILLEGAL`. -/
theorem reservedWordRaisesErrIllegal : Obligations.ReservedWordRaisesErrIllegal := by
  refine ⟨isReserved_decode_iff, fun w s hr => ?_, fun w s => ⟨rfl, rfl, rfl, rfl, fun hs => ?_⟩⟩
  · rw [accept_eq_exec s rfl, exec_eq_accepted, hr, phasesOf_reserved hr, Bool.or_true]
    rfl
  · exact takes_no_phase (s := { s with errIllegal := true }) hs

/-- Settles O5: every word with opcode 0 is `NOP`, which has no phase. -/
theorem nopCompletesAtOnce : Obligations.NopCompletesAtOnce :=
  ⟨fun _ h => ⟨decode_nop h, fun s => accept_eq_exec s (decode_nop h)⟩, fun _ => ⟨rfl, takes_no_phase⟩⟩

/-- Settles O9: a malformed `PLAY` has no phase, and `CMD` holds its word. -/
theorem malformedPlayIsSilent : Obligations.MalformedPlayIsSilent :=
  ⟨fun _ s h hlen => ⟨(accept_eq_exec s (decode_play h)).trans (exec_play_malformed_eq hlen _ _ _), readReg_cmd _⟩,
    fun _ slot pat s hlen => ⟨exec_play_malformed_eq hlen slot pat s, takes_no_phase⟩⟩

/-- Settles O15: the entries of the trace are the sweep's phases, each after the holds before it. -/
theorem sweepTraceLevels : Obligations.SweepTraceLevels := by
  refine fun s => ⟨fun k p hk => ?_, ?_, sum_holds_sweep s.timing BitVec.toNat⟩
  · rw [commandTrace_getElem?, phasesOf, sweepPhases_step s.timing hk p, Option.map_some,
      duration_take_sweep s.timing (by omega), linesWord_sweep_step s s.timing hk p]
    rfl
  · have hall : (sweepPhases s.timing).take (48 + 1) = sweepPhases s.timing := rfl
    rw [commandTrace_getElem?, phasesOf, sweepPhases_last, Option.map_some,
      duration_take_sweep s.timing (Nat.le_refl 48), hall, linesWord_sweep_end]
    rfl

/-- Settles O17: the sum of the holds, and of the default ones, where four holds of a dot make 16 ms. -/
theorem playDuration : Obligations.PlayDuration := by
  refine fun slot pat => ⟨fun T => ⟨sum_holds_play T BitVec.toNat slot pat, length_playPhases slot pat T⟩, ?_,
    length_activeDots_le pat⟩
  have h := sum_holds_play State.reset.timing BitVec.toNat slot pat
  exact h.trans ((Nat.zero_add _).trans (Nat.mul_comm _ _))

/-- Settles O16: the levels of a dot are read off its pulse code, position by position. -/
theorem dotPulseLevels : Obligations.DotPulseLevels := by
  intro s hs
  simp only [dotPhases_levels s.timing _ hs]
  rfl

/-- Settles O6: the phase at each index, the sum of the holds and the state that the phases make. -/
theorem sweepStepsThroughAllSlotsAndPositions : Obligations.SweepStepsThroughAllSlotsAndPositions := by
  refine ⟨fun w => decode_sweep, fun s => ⟨sweepPhases s.timing, rfl, rfl, fun k p hk => ?_, rfl, fun hs => ?_⟩⟩
  · rw [sweepPhases_step s.timing hk p]
    simp only [sweepPhase, ofNat_slot_eq_zero_iff hk]
    rfl
  · have hzero : cycles 0#16 = 1 := by simp [cycles]
    have hrun := takes_to_end hs (sweepPhases s.timing)
    rw [sum_holds_sweep s.timing cycles, hzero, ← Nat.add_assoc, applyPhases_sweep] at hrun
    exact hrun

/-- Settles O7: the one phase is the address entry, and the run performs it. -/
theorem addrAddressesItsSlot : Obligations.AddrAddressesItsSlot := by
  refine ⟨fun w => decode_addr, fun slot s => ⟨addrPhases slot s.timing, rfl, rfl, fun hs => ?_⟩⟩
  have hrun := takes_to_end hs (addrPhases slot s.timing)
  rwa [addrPhases, applyPhases_cons, applyPhase_address, applyPhases_nil] at hrun

/-- Settles O8: the address entry and the dots' phases, run to their end; in sweep mode, by the invariant. -/
theorem playPulsesItsActiveDots : Obligations.PlayPulsesItsActiveDots := by
  refine ⟨fun w => decode_play, fun slot pat s => ⟨playPhases 6#3 slot pat s.timing, rfl, fun len hlen =>
    exec_play_malformed_eq hlen slot pat s, sweep_of_pulse_in_sweep_mode, if_pos rfl, fun hs => ?_⟩⟩
  have hrun := takes_to_end hs (playPhases 6#3 slot pat s.timing)
  rw [sum_holds_play s.timing cycles, applyPhases_play, ← Nat.add_assoc] at hrun
  exact hrun

/-- Settles O39: without reset a step writes the lines and `CUR` as its sequencer's edge does. -/
theorem onlyCommandsAndResetWriteLines : Obligations.OnlyCommandsAndResetWriteLines := by
  intro s t turn hinv hs ht hr hne
  rw [← outputs_ne_iff, step_outputs hs ht hr] at hne
  exact writesOutputs_of_sequencerEdge hinv hne

end Sys2Proof.Proofs
end

section
/-!
PROOF. The codec: which table a folded code is looked up in, and where it is found in none (R160 to R167).
-/

namespace Sys2Proof.Machine

variable {cfg : Config} {c d : Byte}

/-! ### Classes of codes -/

theorem isLetter_iff : isLetter c = true ↔ 0x61#8 ≤ c ∧ c ≤ 0x7A#8 := by simp [isLetter]

theorem isDigit_iff : isDigit c = true ↔ 0x30#8 ≤ c ∧ c ≤ 0x39#8 := by simp [isDigit]

/-- Folding makes a letter of a capital and leaves every other code (R161). -/
theorem foldCase_cases (c : Byte) : isLetter (foldCase c) = true ∨ foldCase c = c := by
  unfold foldCase
  split
  · exact .inl (isLetter_iff.mpr (by bv_omega))
  · exact .inr rfl

/-- A letter and its capital fold to the letter (R161). -/
theorem foldCase_letter (hc : isLetter c = true) : foldCase c = c ∧ foldCase (c - 0x20#8) = c := by
  rw [isLetter_iff] at hc
  exact ⟨if_neg (by bv_omega), (if_pos (by bv_omega)).trans (by bv_omega)⟩

theorem foldCase_digit (hc : isDigit c = true) : foldCase c = c := by
  rw [isDigit_iff] at hc
  exact if_neg (by bv_omega)

theorem not_letter_of_digit (hc : isDigit c = true) : isLetter c = false := by
  rw [isDigit_iff] at hc
  rw [← Bool.not_eq_true, isLetter_iff]
  bv_omega

/-! ### The table of a code -/

/-- Only the folded code matters (R161). -/
theorem lookup_congr (h : foldCase c = foldCase d) : lookup cfg c = lookup cfg d := by
  simp only [lookup, h]

theorem lookup_of_letter (hc : isLetter c = true) : lookup cfg c = letterTable[c.toNat - 0x61]? := by
  simp [lookup, (foldCase_letter hc).1, hc]

theorem lookup_of_digit (hc : isDigit c = true) : lookup cfg c = letterTable[digitLetter c]? := by
  simp [lookup, foldCase_digit hc, not_letter_of_digit hc, hc]

/-- A letter's place in the table (R162). -/
theorem letter_index_lt (hc : isLetter c = true) : c.toNat - 0x61 < letterTable.length := by
  rw [isLetter_iff] at hc
  change c.toNat - 0x61 < 26
  bv_omega

/-- A digit's place in the table is that of a letter (R163). -/
theorem digit_index_lt (hc : isDigit c = true) : digitLetter c < letterTable.length := by
  rw [isDigit_iff] at hc
  change digitLetter c < 26
  unfold digitLetter
  split
  · decide
  · bv_omega

/-- A code is not found exactly where its folded form is in no class (R167). -/
theorem lookup_eq_none_iff : lookup cfg c = none ↔ isLetter (foldCase c) = false ∧ isDigit (foldCase c) = false ∧
    foldCase c ∉ punctuation ∧ foldCase c ≠ 0x20#8 := by
  simp only [lookup]
  split
  · rename_i hl
    simp [hl, letter_index_lt hl]
  · rename_i hl
    split
    · rename_i hd
      simp [hd, digit_index_lt hd]
    · rename_i hd
      split
      · simp [*]
      · split <;> simp [*]

end Sys2Proof.Machine
end

section
/-!
PROOF. The orchestrator along a text that grows by one character: its display state, the digit runs, and the command words of
the character (R175, R178, R180 to R184).
-/

namespace Sys2Proof.Machine

open Sys2Proof.Statements

variable {cfg : Config} {st : DisplayState} {text : List Byte}

/-! ### The display state -/

theorem afterText_concat (st : DisplayState) (text : List Byte) (c : Byte) :
    st.afterText (text ++ [c]) = (st.afterText text).afterChar c := List.foldl_concat ..

theorem afterRunStart_displayIndex (st : DisplayState) (c : Byte) :
    (st.afterRunStart c).displayIndex = st.displayIndex + (startsDigitRun st c).toNat := by
  unfold DisplayState.afterRunStart
  split <;> simp [DisplayState.advance, *]

theorem afterChar_displayIndex (st : DisplayState) (c : Byte) :
    (st.afterChar c).displayIndex = (st.afterRunStart c).displayIndex + 1 := rfl

/-- Before its first character a request has seen no digit; after it, what the last character was (R175, R178). -/
theorem afterText_isPrevDigit (text : List Byte) :
    (DisplayState.init.afterText text).isPrevDigit =
      !(text.length == 0 || !isDigit (text.getD (text.length - 1) 0#8)) := by
  obtain rfl | ⟨bs, b, rfl⟩ := List.eq_nil_or_concat text
  · rfl
  · rw [List.concat_eq_append, afterText_concat]
    simp [DisplayState.afterChar]

/-- A further character begins a run of digits of the text exactly where the orchestrator finds that it does (R182). -/
theorem digitRuns_concat (text : List Byte) (c : Byte) :
    digitRuns (text ++ [c]) = digitRuns text + (startsDigitRun (DisplayState.init.afterText text) c).toNat := by
  have hold (i : Nat) (hi : i < text.length) : (text ++ [c]).getD i 0#8 = text.getD i 0#8 :=
    List.getD_append _ _ _ _ hi
  have hnew : (text ++ [c]).getD text.length 0#8 = c := by simp
  unfold digitRuns startsDigitRun
  rw [List.length_append, List.length_singleton, List.range_succ, List.filter_append, List.length_append,
    afterText_isPrevDigit, Bool.not_not]
  congr 1
  · refine congrArg List.length (List.filter_congr fun i hi => ?_)
    have hi := List.mem_range.mp hi
    rw [hold i hi, hold (i - 1) (by omega)]
  · have hprev : (text.length == 0 || !isDigit ((text ++ [c]).getD (text.length - 1) 0#8)) =
        (text.length == 0 || !isDigit (text.getD (text.length - 1) 0#8)) := by
      obtain h0 | hpos := Nat.eq_zero_or_pos text.length
      · rw [h0]; rfl
      · rw [hold _ (by omega)]
    rw [List.filter_singleton, hnew, hprev]
    cases isDigit c && (text.length == 0 || _) <;> rfl

/-- The slots of a request so far: one for each character and one for each run of digits (R182). -/
theorem afterText_displayIndex (text : List Byte) :
    (DisplayState.init.afterText text).displayIndex = text.length + digitRuns text := by
  induction text using List.reverseRecOn with
  | nil => rfl
  | append_singleton text c ih =>
    rw [afterText_concat, afterChar_displayIndex, afterRunStart_displayIndex, ih, digitRuns_concat, List.length_append,
      List.length_singleton]
    omega

/-- The last character's own slot is the last of the request (R178). -/
theorem last_slot_index (text : List Byte) (c : Byte) :
    ((DisplayState.init.afterText text).afterRunStart c).displayIndex =
      (text ++ [c]).length + digitRuns (text ++ [c]) - 1 := by
  rw [← afterText_displayIndex, afterText_concat, afterChar_displayIndex, Nat.add_sub_cancel]

/-! ### The command words -/

theorem textWords_concat (cfg : Config) (st : DisplayState) (text : List Byte) (c : Byte) :
    textWords cfg st (text ++ [c]) = textWords cfg st text ++ charWords cfg (st.afterText text) c := by
  induction text generalizing st with
  | nil => simp [textWords, DisplayState.afterText]
  | cons b bs ih =>
    rw [List.cons_append, textWords, ih, textWords, List.append_assoc]
    rfl

theorem displayWords_of_ne_nil (h : text ≠ []) :
    displayWords cfg (some text) = encode .sweep :: textWords cfg DisplayState.init text := by
  cases text with
  | nil => exact absurd rfl h
  | cons b bs => rfl

/-- The command that plays a pattern in the next slot, or addresses the slot where there is none (R178, R183). -/
def DisplayState.slotCommand (st : DisplayState) : Option Pattern → Instr
  | some p => .play 6#3 st.slot p
  | none => .addr st.slot

/-- Is the next slot the first of a further round, so that a sweep comes before it (R180)? -/
def wrapsAt (k : Nat) : Bool := k ≠ 0 ∧ k % 8 = 0

theorem slotWords_eq (st : DisplayState) (pat : Option Pattern) :
    slotWords st pat = (if wrapsAt st.displayIndex then [encode .sweep] else []) ++ [encode (st.slotCommand pat)] := by
  have hslot : st.slot = 0#3 ↔ st.displayIndex % 8 = 0 := by
    rw [DisplayState.slot, ← BitVec.toNat_inj, BitVec.toNat_ofNat]
    rfl
  cases pat <;> simp [slotWords, DisplayState.slotCommand, wrapsAt, hslot]

theorem decode_encode {i : Instr} (h : i.wf = true) : decode (encode i) = i :=
  (decode_of_matches (encode_matches h)).trans (withOperandsOf_encode i)

theorem decode_slotCommand (st : DisplayState) (pat : Option Pattern) :
    decode (encode (st.slotCommand pat)) = st.slotCommand pat := by
  cases pat <;> exact decode_encode rfl

/-- A character's words end with its slot's command and its hold (R178). -/
theorem charWords_ends (cfg : Config) (st : DisplayState) (c : Byte) : ∃ before,
    charWords cfg st c = before ++ [encode ((st.afterRunStart c).slotCommand (lookup cfg c)), encode .waitChar] :=
  ⟨_, by rw [charWords, slotWords_eq (st.afterRunStart c), ← List.append_assoc, List.append_assoc]; rfl⟩

end Sys2Proof.Machine
end

section
/-!
PROOF. What the command words of a request come to: its sweeps and slots in order, sums over its words, and its digit
prefixes (R180 to R185).
-/

namespace Sys2Proof.Machine

open Sys2Proof.Statements

variable {cfg : Config} {text : List Byte}

/-! ### Sweeps and slots (R180, R181) -/

/-- The sweeps and the slot of the `k`-th slot of a request, but for the request's first sweep (R180, R181). -/
def slotEventsAt (k : Nat) : List (Option Slot) := (if wrapsAt k then [none] else []) ++ [some (BitVec.ofNat 3 k)]

theorem slotEvent_slotCommand (st : DisplayState) (pat : Option Pattern) :
    slotEvent (encode (st.slotCommand pat)) = some (some st.slot) := by
  rw [slotEvent, decode_slotCommand]
  cases pat <;> rfl

theorem slotEvents_slotWords (st : DisplayState) (pat : Option Pattern) :
    (slotWords st pat).filterMap slotEvent = slotEventsAt st.displayIndex := by
  have hsweep : slotEvent (encode .sweep) = some none := rfl
  rw [slotWords_eq, slotEventsAt]
  split <;> simp [slotEvent_slotCommand, hsweep, DisplayState.slot]

theorem slotEvents_charWords (st : DisplayState) (c : Byte) :
    (List.range st.displayIndex).flatMap slotEventsAt ++ (charWords cfg st c).filterMap slotEvent =
      (List.range (st.afterChar c).displayIndex).flatMap slotEventsAt := by
  have hsettle : slotEvent (encode .waitSettle) = none := rfl
  have hchar : slotEvent (encode .waitChar) = none := rfl
  rw [afterChar_displayIndex, charWords, List.range_succ, afterRunStart_displayIndex]
  cases hrun : startsDigitRun st c with
  | true => simp [slotEvents_slotWords, List.range_succ, afterRunStart_displayIndex, hrun, hsettle, hchar]
  | false => simp [slotEvents_slotWords, afterRunStart_displayIndex, hrun, hchar]

theorem slotEvents_textWords (text : List Byte) :
    (textWords cfg .init text).filterMap slotEvent =
      (List.range (text.length + digitRuns text)).flatMap slotEventsAt := by
  rw [← afterText_displayIndex]
  induction text using List.reverseRecOn with
  | nil => rfl
  | append_singleton text c ih =>
    rw [textWords_concat, List.filterMap_append, ih, slotEvents_charWords, afterText_concat]

/-- With the sweep that a request begins with, each slot at a multiple of 8 has one before it (R180). -/
theorem none_cons_slotEvents {n : Nat} (hn : 0 < n) :
    none :: (List.range n).flatMap slotEventsAt =
      (List.range n).flatMap fun k => (if k % 8 = 0 then [none] else []) ++ [some (BitVec.ofNat 3 k)] := by
  obtain ⟨m, rfl⟩ := Nat.exists_eq_add_of_le' hn
  rw [List.range_succ_eq_map, List.flatMap_cons, List.flatMap_cons, List.flatMap_map, List.flatMap_map]
  simp [slotEventsAt, wrapsAt]

/-! ### Sums over the words of a request (R185) -/

section
variable {μ : Word → Nat} {b e : Nat}

/-- A measure `μ` of words that is `b`, and `e` for each dot, on the commands of slots. -/
def SlotMeasure (μ : Word → Nat) (b e : Nat) : Prop :=
  ∀ (st : DisplayState) (pat : Option Pattern),
    μ (encode (st.slotCommand pat)) = b + e * dotsOf (encode (st.slotCommand pat))

theorem sum_slotWords (hμ : SlotMeasure μ b e) (st : DisplayState) (pat : Option Pattern) :
    ((slotWords st pat).map μ).sum =
      μ (encode .sweep) * (wrapsAt st.displayIndex).toNat + b + e * ((slotWords st pat).map dotsOf).sum := by
  have hsweep : dotsOf (encode .sweep) = 0 := rfl
  rw [slotWords_eq]
  cases wrapsAt st.displayIndex with
  | true => simp [hμ st pat, hsweep, Nat.add_assoc]
  | false => simp [hμ st pat]

/-- One more slot brings one more sweep exactly where the slots wrap (R180). -/
theorem sweeps_succ (k : Nat) : k / 8 = (k - 1) / 8 + (wrapsAt k).toNat := by
  cases h : wrapsAt k with
  | true =>
    have hk := of_decide_eq_true h
    change k / 8 = (k - 1) / 8 + 1
    omega
  | false =>
    have hk := of_decide_eq_false h
    change k / 8 = (k - 1) / 8
    omega

/-- What a further character adds to a sum: its one or two slots with their sweeps, and its holds (R178). -/
theorem sum_charWords (hμ : SlotMeasure μ b e) (cfg : Config) (st : DisplayState) (c : Byte) :
    μ (encode .sweep) * ((st.displayIndex - 1) / 8) + b * st.displayIndex + ((charWords cfg st c).map μ).sum =
      μ (encode .sweep) * (((st.afterChar c).displayIndex - 1) / 8) + b * (st.afterChar c).displayIndex +
        μ (encode .waitSettle) * (startsDigitRun st c).toNat + μ (encode .waitChar) +
        e * ((charWords cfg st c).map dotsOf).sum := by
  have hsettle : dotsOf (encode .waitSettle) = 0 := rfl
  have hchar : dotsOf (encode .waitChar) = 0 := rfl
  have h1 := sweeps_succ st.displayIndex
  have h2 := sweeps_succ (st.displayIndex + 1)
  rw [afterChar_displayIndex, afterRunStart_displayIndex, charWords]
  cases hrun : startsDigitRun st c with
  | true =>
    simp only [if_true, List.map_append, List.map_singleton, List.sum_append, List.sum_singleton, sum_slotWords hμ,
      afterRunStart_displayIndex, hrun, Bool.toNat_true, Nat.add_sub_cancel, h2, h1, hsettle, hchar]
    ring
  | false =>
    simp only [Bool.false_eq_true, if_false, List.nil_append, List.map_append, List.map_singleton, List.sum_append,
      List.sum_singleton, sum_slotWords hμ, afterRunStart_displayIndex, hrun, Bool.toNat_false, Nat.add_zero,
      Nat.add_sub_cancel, h1, hchar]
    ring

/-- The sum over the words after a request's first sweep, in its slots, digit runs, characters and dots (R185). -/
theorem sum_textWords (hμ : SlotMeasure μ b e) (cfg : Config) (text : List Byte) :
    ((textWords cfg .init text).map μ).sum =
      μ (encode .sweep) * ((text.length + digitRuns text - 1) / 8) + b * (text.length + digitRuns text) +
        μ (encode .waitSettle) * digitRuns text + μ (encode .waitChar) * text.length +
        e * ((textWords cfg .init text).map dotsOf).sum := by
  induction text using List.reverseRecOn with
  | nil => simp [textWords]; rfl
  | append_singleton text c ih =>
    have hstep := sum_charWords hμ cfg (DisplayState.init.afterText text) c
    simp only [← afterText_concat, afterText_displayIndex, digitRuns_concat, List.length_append,
      List.length_singleton] at hstep
    simp only [textWords_concat, List.map_append, List.sum_append, ih, digitRuns_concat, List.length_append,
      List.length_singleton]
    linarith

end

theorem length_filter_eq_sum (p : Word → Bool) (ws : List Word) :
    (ws.filter p).length = (ws.map fun w => (p w).toNat).sum := by
  induction ws with
  | nil => rfl
  | cons w ws ih => cases hp : p w <;> simp [hp, ih, Nat.add_comm]

/-- How often a command that addresses no slot is issued after a request's first sweep (R180, R182). -/
theorem length_filter_textWords {i : Instr} (hi : ∀ (st : DisplayState) pat, st.slotCommand pat ≠ i) (cfg : Config)
    (text : List Byte) :
    ((textWords cfg .init text).filter fun w => decode w == i).length =
      (decide (.sweep = i)).toNat * ((text.length + digitRuns text - 1) / 8) +
        (decide (.waitSettle = i)).toNat * digitRuns text + (decide (.waitChar = i)).toNat * text.length := by
  have hμ : SlotMeasure (fun w => (decode w == i).toNat) 0 0 := by
    intro st pat
    simp [decode_slotCommand, hi st pat]
  have hsum := sum_textWords hμ cfg text
  rw [length_filter_eq_sum, hsum, Nat.zero_mul, Nat.zero_mul, Nat.add_zero, Nat.add_zero]
  rfl

/-- The time of a slot's command: the address setup, and the pulses of its dots (R136, R143). -/
theorem slotMeasure_duration (T : Timing) :
    SlotMeasure (fun w => duration (phasesOf (decode w) T)) T.addrSetup.toNat
      (3 * T.pulseHold.toNat + T.pulseGap.toNat) := by
  intro st pat
  simp only [dotsOf, decode_slotCommand]
  cases pat with
  | none => rfl
  | some p =>
    refine (sum_holds_play T BitVec.toNat st.slot p).trans ?_
    rw [Nat.mul_comm]
    rfl

/-- The duration of a request at any timing (R185). -/
theorem sum_duration_displayWords (cfg : Config) (h : text ≠ []) (T : Timing) :
    ((displayWords cfg (some text)).map fun w => duration (phasesOf (decode w) T)).sum =
      48 * T.sweepStep.toNat * (1 + (digitRuns text + text.length - 1) / 8) +
        (3 * T.pulseHold.toNat + T.pulseGap.toNat) * ((displayWords cfg (some text)).map dotsOf).sum +
        T.prefixSettle.toNat * digitRuns text + T.charHold.toNat * text.length +
        T.addrSetup.toNat * (digitRuns text + text.length) := by
  have hdots : dotsOf (encode .sweep) = 0 := rfl
  have hsweep : duration (phasesOf (decode (encode .sweep)) T) = 48 * T.sweepStep.toNat :=
    sum_holds_sweep T BitVec.toNat
  have hsettle : duration (phasesOf (decode (encode .waitSettle)) T) = T.prefixSettle.toNat := rfl
  have hchar : duration (phasesOf (decode (encode .waitChar)) T) = T.charHold.toNat := rfl
  rw [displayWords_of_ne_nil h, List.map_cons, List.sum_cons, List.map_cons, List.sum_cons,
    sum_textWords (slotMeasure_duration T), hsweep, hsettle, hchar, hdots, Nat.add_comm text.length]
  ring

/-! ### Digit prefixes (R182) -/

/-- Each settle hold among the words follows a slot that plays `PREFIX_PATTERN` (R178, R182). -/
def SettlesFollowPrefixes (cfg : Config) (ws : List Word) : Prop :=
  ∀ k : Nat, ws[k]? = some (encode .waitSettle) →
    ∃ (j : Nat) (slot : Slot), k = j + 1 ∧ ws[j]? = some (encode (.play 6#3 slot cfg.prefixPattern))

theorem SettlesFollowPrefixes.append {vs ws : List Word} (hv : SettlesFollowPrefixes cfg vs)
    (hw : SettlesFollowPrefixes cfg ws) : SettlesFollowPrefixes cfg (vs ++ ws) := by
  intro k hk
  obtain hlt | hge := Nat.lt_or_ge k vs.length
  · rw [List.getElem?_append_left hlt] at hk
    obtain ⟨j, slot, rfl, hj⟩ := hv k hk
    exact ⟨j, slot, rfl, by rwa [List.getElem?_append_left (by omega)]⟩
  · rw [List.getElem?_append_right hge] at hk
    obtain ⟨j, slot, hkj, hj⟩ := hw _ hk
    refine ⟨vs.length + j, slot, by omega, ?_⟩
    rwa [List.getElem?_append_right (by omega), Nat.add_sub_cancel_left]

theorem settlesFollowPrefixes_of_not_mem {ws : List Word} (h : encode .waitSettle ∉ ws) :
    SettlesFollowPrefixes cfg ws := fun _ hk => absurd (List.mem_of_getElem? hk) h

theorem settle_ne_slotCommand (st : DisplayState) (pat : Option Pattern) :
    encode .waitSettle ≠ encode (st.slotCommand pat) := by
  intro h
  have hdec := congrArg decode h
  rw [decode_slotCommand] at hdec
  cases pat <;> cases hdec

theorem settle_not_mem_slotWords (st : DisplayState) (pat : Option Pattern) :
    encode .waitSettle ∉ slotWords st pat := by
  have hsweep : encode .waitSettle ≠ encode .sweep := by decide
  rw [slotWords_eq]
  split <;> simp [settle_ne_slotCommand, hsweep]

/-- A character brings a settle hold, and with it a prefix, exactly where it begins a run of digits (R182). -/
theorem settle_mem_charWords (cfg : Config) (st : DisplayState) (c : Byte) :
    encode .waitSettle ∈ charWords cfg st c ↔ startsDigitRun st c = true := by
  have hchar : encode .waitSettle ≠ encode .waitChar := by decide
  unfold charWords
  cases hrun : startsDigitRun st c <;> simp [settle_not_mem_slotWords, hchar]

theorem settlesFollowPrefixes_prefix (st : DisplayState) :
    SettlesFollowPrefixes cfg (slotWords st (some cfg.prefixPattern) ++ [encode .waitSettle]) := by
  have hsweep : encode .waitSettle ∉ [encode .sweep] := by decide
  have hpair : SettlesFollowPrefixes cfg [encode (st.slotCommand (some cfg.prefixPattern)), encode .waitSettle]
    | 0, hk => absurd (Option.some.inj hk).symm (settle_ne_slotCommand st _)
    | 1, _ => ⟨0, st.slot, rfl, rfl⟩
  rw [slotWords_eq, List.append_assoc]
  refine .append ?_ hpair
  split
  · exact settlesFollowPrefixes_of_not_mem hsweep
  · exact settlesFollowPrefixes_of_not_mem List.not_mem_nil

theorem settlesFollowPrefixes_charWords (cfg : Config) (st : DisplayState) (c : Byte) :
    SettlesFollowPrefixes cfg (charWords cfg st c) := by
  have hchar : encode .waitSettle ∉ [encode .waitChar] := by decide
  refine .append (.append ?_ ?_) (settlesFollowPrefixes_of_not_mem hchar)
  · split
    · exact settlesFollowPrefixes_prefix st
    · exact settlesFollowPrefixes_of_not_mem List.not_mem_nil
  · exact settlesFollowPrefixes_of_not_mem (settle_not_mem_slotWords _ _)

theorem settlesFollowPrefixes_textWords (cfg : Config) (st : DisplayState) (text : List Byte) :
    SettlesFollowPrefixes cfg (textWords cfg st text) := by
  induction text generalizing st with
  | nil => exact settlesFollowPrefixes_of_not_mem List.not_mem_nil
  | cons c cs ih => exact (settlesFollowPrefixes_charWords cfg st c).append (ih _)

theorem settlesFollowPrefixes_displayWords (cfg : Config) (text : List Byte) :
    SettlesFollowPrefixes cfg (displayWords cfg (some text)) := by
  have hsweep : encode .waitSettle ∉ [encode .sweep] := by decide
  cases text with
  | nil => exact settlesFollowPrefixes_of_not_mem List.not_mem_nil
  | cons c cs => exact (settlesFollowPrefixes_of_not_mem hsweep).append (settlesFollowPrefixes_textWords cfg .init (c :: cs))

end Sys2Proof.Machine
end

section
/-!
PROOF. The reference host's work along its turns: an expanded step of its program keeps the script one of a host that waits
and loses no command word and no diagnostic (R177, R178, R183), so a host that waits has each word accepted.
-/

namespace Sys2Proof.Machine

variable {s t : State} {cfg : Config} {h : HostAgent} {turn : Turn}

/-! ### The operations of one character -/

section
variable (w : Word) (ws : List Word) (request : Option DisplayState) (rest : List HostOp) (st : DisplayState) (c : Byte)

@[simp] theorem waitingScript_issue : waitingScript (issue w ++ rest) = waitingScript rest := rfl

@[simp] theorem scriptWords_issue :
    scriptWords cfg request (issue w ++ rest) = w :: scriptWords cfg request rest := rfl

@[simp] theorem scriptDiagnostics_issue : scriptDiagnostics cfg (issue w ++ rest) = scriptDiagnostics cfg rest := rfl

@[simp] theorem waitingScript_issues : waitingScript (ws.flatMap issue ++ rest) = waitingScript rest := by
  induction ws with
  | nil => rfl
  | cons w ws ih => exact ih

@[simp] theorem scriptWords_issues :
    scriptWords cfg request (ws.flatMap issue ++ rest) = ws ++ scriptWords cfg request rest := by
  induction ws with
  | nil => rfl
  | cons w ws ih => exact congrArg (w :: ·) ih

@[simp] theorem scriptDiagnostics_issues :
    scriptDiagnostics cfg (ws.flatMap issue ++ rest) = scriptDiagnostics cfg rest := by
  induction ws with
  | nil => rfl
  | cons w ws ih => exact ih

/-- A character's command words are polled one by one, so the host waits (R177, R178). -/
theorem waitingScript_charOps : waitingScript (charOps cfg st c ++ rest) = waitingScript rest := by
  unfold charOps
  split <;> split <;> simp [waitingScript]

/-- A character's operations issue its command words and leave the request in its next display state (R178). -/
theorem scriptWords_charOps :
    scriptWords cfg request (charOps cfg st c ++ rest) =
      charWords cfg st c ++ scriptWords cfg (some (st.afterChar c)) rest := by
  unfold charOps charWords
  split <;> split <;> simp [scriptWords]

/-- A character's operations report it where it is unmapped (R183). -/
theorem scriptDiagnostics_charOps :
    scriptDiagnostics cfg (charOps cfg st c ++ rest) = textDiagnostics cfg [c] ++ scriptDiagnostics cfg rest := by
  unfold charOps textDiagnostics
  split <;> split <;> rename_i hc <;> simp [scriptDiagnostics, hc]

theorem textDiagnostics_cons (cs : List Byte) :
    textDiagnostics cfg (c :: cs) = textDiagnostics cfg [c] ++ textDiagnostics cfg cs := by
  simp only [textDiagnostics, ← List.map_append, ← List.filter_append, List.singleton_append]

end

/-! ### The expanded head of the script -/

/-- Expanding the head of the script changes when the work is done and not what it is: whether the host waits, the command
words it has to issue, and the diagnostics it has given and has to give (R177, R178, R183). -/
theorem expand_keeps_work (cfg : Config) (h : HostAgent) :
    waitingScript (h.expand cfg).script = waitingScript h.script ∧
    scriptWords cfg (h.expand cfg).request (h.expand cfg).script = scriptWords cfg h.request h.script ∧
    (h.expand cfg).diagnostics ++ scriptDiagnostics cfg (h.expand cfg).script =
      h.diagnostics ++ scriptDiagnostics cfg h.script := by
  unfold HostAgent.expand
  split
  case h_7 => exact ⟨rfl, rfl, rfl⟩
  all_goals rename_i hscript; rw [hscript]
  case h_4 => exact ⟨rfl, rfl, rfl⟩
  case h_5 c cs rest =>
    refine ⟨waitingScript_charOps _ _ _, ?_, ?_⟩
    · rw [scriptWords_charOps, scriptWords, scriptWords, textWords, List.append_assoc]
      rfl
    · rw [scriptDiagnostics_charOps, scriptDiagnostics, scriptDiagnostics, textDiagnostics_cons c cs, List.append_assoc]
  all_goals simp [waitingScript, scriptWords, scriptDiagnostics, displayWords]

/-- A poll is no step of the program: it stays at the head (R177). -/
theorem head_expand_of_poll (hp : h.script.head? = some .poll) : (h.expand cfg).script.head? = some .poll := by
  obtain ⟨rest, hscript⟩ := List.head?_eq_some_iff.mp hp
  simp [HostAgent.expand, hscript]

/-- A poll issues nothing and reports nothing, so the work is the same once it is done (R177). -/
theorem tail_of_poll_keeps_work (cfg : Config) (request : Option DisplayState) {ops : List HostOp}
    (hp : ops.head? = some .poll) :
    waitingScript ops.tail = waitingScript ops ∧ scriptWords cfg request ops.tail = scriptWords cfg request ops ∧
      scriptDiagnostics cfg ops.tail = scriptDiagnostics cfg ops := by
  obtain ⟨rest, rfl⟩ := List.head?_eq_some_iff.mp hp
  exact ⟨rfl, rfl, rfl⟩

/-! ### The turn of a host that waits -/

/-- The host waits, with these command words still to issue (R177, R178). -/
def HostAgent.WaitsWith (cfg : Config) (ws : List Word) (h : HostAgent) : Prop :=
  waitingScript h.script = true ∧ scriptWords cfg h.request h.script = ws

/-- The accesses of a host that waits are `CMD` writes, each before its poll (R177). -/
theorem access_of_waiting {a : Access} {rest : List HostOp} (hw : waitingScript (.access a :: rest) = true) :
    ∃ w ops, a = .write 0x0#4 w ∧ rest = .poll :: ops := by
  cases a with
  | read n => cases hw
  | write n w =>
    cases rest with
    | nil => cases hw
    | cons op ops =>
      cases op with
      | poll =>
        obtain ⟨hn, -⟩ := Bool.and_eq_true_iff.mp hw
        exact ⟨w, ops, by rw [eq_of_beq hn], rfl⟩
      | _ => cases hw

/-- What a host that waits does with the head of its script: nothing on the pins, a poll, or its next command word
(R177). -/
theorem act_cases_of_waiting (hw : waitingScript h.script = true) (ha : h.act cfg = .ok turn) :
    turn = ⟨Pins.quiet, h, false⟩ ∨
    h.script.head? = some .poll ∧ turn = ⟨⟨false, some (.read 0x1#4)⟩, h, true⟩ ∨
    ∃ w rest, h.script = .access (.write 0x0#4 w) :: .poll :: rest ∧
      turn = ⟨⟨false, some (.write 0x0#4 w)⟩, { h with script := .poll :: rest }, false⟩ := by
  unfold HostAgent.act at ha
  split at ha <;> rename_i hscript
  case h_1 a rest =>
    cases ha
    rw [hscript] at hw
    obtain ⟨w, ops, rfl, rfl⟩ := access_of_waiting hw
    exact .inr (.inr ⟨w, ops, hscript, rfl⟩)
  case h_5 => cases ha; exact .inr (.inl ⟨by rw [hscript]; rfl, rfl⟩)
  case h_2 | h_3 | h_4 => rw [hscript] at hw; cases hw
  all_goals cases ha; exact .inl rfl

/-- The turn of a host that waits: a pause or a step of its program, a poll, or its next command word, which it does not
issue while it has a poll to make (R177, R178). -/
theorem turn_cases_of_waiting {ws : List Word} (hw : h.WaitsWith cfg ws) (ht : h.turn cfg = .ok turn) :
    (∃ g, turn = ⟨Pins.quiet, g, false⟩ ∧ g.WaitsWith cfg ws ∧
      (h.script.head? = some .poll → g.script.head? = some .poll)) ∨
    (∃ g, turn = ⟨⟨false, some (.read 0x1#4)⟩, g, true⟩ ∧ g.WaitsWith cfg ws ∧ g.script.head? = some .poll) ∨
    ∃ g w vs, turn = ⟨⟨false, some (.write 0x0#4 w)⟩, g, false⟩ ∧ ws = w :: vs ∧ g.WaitsWith cfg vs ∧
      h.script.head? ≠ some .poll ∧ g.script.head? = some .poll := by
  obtain ⟨-, rfl⟩ | ⟨n, ps, -, rfl⟩ | ⟨ps, -, -, ha⟩ := turn_cases ht
  · exact .inl ⟨_, rfl, hw, id⟩
  · exact .inl ⟨_, rfl, hw, id⟩
  · obtain ⟨hwait, hwords, -⟩ := expand_keeps_work cfg { h with pace := ps }
    have hexp : (HostAgent.expand cfg { h with pace := ps }).WaitsWith cfg ws :=
      ⟨hwait.trans hw.1, hwords.trans hw.2⟩
    have hpoll := head_expand_of_poll (cfg := cfg) (h := { h with pace := ps })
    obtain rfl | ⟨hp, rfl⟩ | ⟨w, rest, hscript, rfl⟩ := act_cases_of_waiting hexp.1 ha
    · exact .inl ⟨_, rfl, hexp, hpoll⟩
    · exact .inr (.inl ⟨_, rfl, hexp, hp⟩)
    · obtain ⟨hwait, rfl⟩ := hexp
      rw [hscript] at hwait hpoll ⊢
      exact .inr (.inr ⟨_, w, _, rfl, rfl, ⟨hwait, rfl⟩, fun hp => (nomatch hpoll hp), rfl⟩)

/-! ### The step of a host that waits -/

/-- A `CMD` write into an idle block is accepted (R25, R121). -/
theorem clockEdge_cmd_write_idle (hb : s.busy = false) (w : Word) :
    s.clockEdge cfg ⟨false, some (.write 0x0#4 w)⟩ = (s.setRdata none).accept w := by
  change State.writeReg (busySeen cfg s (s.sequencerEdge _)) 0x0#4 w ((s.sequencerEdge _).setRdata none) = _
  rw [busySeen_idle hb, sequencerEdge_idle hb]
  rfl

/-- A poll that has read `BUSY = 1` stays, one that has read 0 is done (R177). -/
theorem settlePoll_read_status (s : State) :
    (s.setRdata (some s.statusWord)).settlePoll = (s.setRdata (some s.statusWord)).setHost
      (if s.busy then s.host else { s.host with script := s.host.script.tail }) := by
  obtain ⟨hbusy, -⟩ := statusWord_getLsbD s
  simp only [State.settlePoll, setRdata_busRdata, statusBusy, hbusy]
  split <;> rfl

/-- One step of a host that waits: it goes on waiting and `ERR_BUSY` stays, and either no command word is issued or the
first is accepted by the block, which was idle (R177, R178). -/
theorem step_of_waiting (hw : s.HostWaits) (hs : step s = .next t) :
    t.HostWaits ∧ t.errBusy = s.errBusy ∧
    (t.wordsToIssue Config.platform = s.wordsToIssue Config.platform ∨
      ∃ w, s.wordsToIssue Config.platform = w :: t.wordsToIssue Config.platform ∧
        s.busy = false ∧ t.busy = true ∧ t.cmd = w) := by
  obtain ⟨hwait, hpolls⟩ := hw
  obtain ⟨turn, u, ht, hc, rfl⟩ := step_next hs
  obtain ⟨g, rfl, ⟨hg, hwords⟩, hpoll⟩ | ⟨g, rfl, ⟨hg, hwords⟩, hpoll⟩ |
    ⟨g, w, vs, rfl, hfirst, ⟨hg, rfl⟩, hno, hpoll⟩ := turn_cases_of_waiting (ws := s.wordsToIssue _) ⟨hwait, rfl⟩ ht
  · -- nothing on the pins: the block may only have become idle
    cases hc
    rw [sequencerEdge_setHost]
    exact ⟨⟨hg, fun hb => hpoll (hpolls (busy_of_sequencerEdge hb))⟩, sequencerEdge_errBusy, .inl hwords⟩
  · -- a poll: it is done where it has read `BUSY = 0`
    cases hc
    obtain ⟨hwaitTail, hwordsTail, -⟩ := tail_of_poll_keeps_work Config.platform g.request hpoll
    rw [if_pos rfl, readReg_status, settlePoll_read_status]
    simp only [State.HostWaits, State.wordsToIssue, setHost_host, setHost_busy, setHost_errBusy, setRdata_busy,
      setRdata_errBusy, setRdata_host, sequencerEdge_errBusy, sequencerEdge_host]
    cases (State.sequencerEdge _ (s.setHost g)).busy with
    | true => exact ⟨⟨hg, fun _ => hpoll⟩, trivial, .inl hwords⟩
    | false => exact ⟨⟨hwaitTail.trans hg, fun hb => (nomatch hb)⟩, trivial, .inl (hwordsTail.trans hwords)⟩
  · have hb : s.busy = false := by
      by_contra hb
      exact hno (hpolls (eq_true_of_ne_false hb))
    have ha := (clockEdge_cmd_write_idle (s := s.setHost g) hb w).symm.trans hc
    obtain ⟨-, -, -, hcmd, herr, -, -, -, hhost⟩ := exec_frame ha
    obtain ⟨hbusy, -⟩ := exec_starts ha
    have hhost : u.host = g := hhost
    refine ⟨⟨hhost ▸ hg, fun _ => hhost ▸ hpoll⟩, herr, .inr ⟨w, ?_, hb, hbusy, hcmd⟩⟩
    rw [hfirst, ← hhost]
    rfl

/-- A step, put together: the host's turn, the block's edge, and a poll that is settled. -/
theorem step_of_turn (ht : s.host.turn Config.platform = .ok turn)
    (hc : (s.setHost turn.host).clockEdge Config.platform turn.pins = .next t) :
    step s = .next (if turn.polling then t.settlePoll else t) := by
  simp only [step, machineEdge, ht, hc]
  split <;> rfl

end Sys2Proof.Machine
end

section
/-!
PROOF. What a step makes of the host: no edge of the block looks at it (R7), no diagnostic is lost and none is looked at
(R183, R191), and a request that is due is rejected, refused or begun (R175, R179, R190).
-/

namespace Sys2Proof.Machine

open Sys2Proof.Statements

variable {s t : State} {cfg : Config} {h : HostAgent} {turn : Turn}

/-! ### The edge of the block does not look at the host -/

theorem accept_setHost {w : Word} (g : HostAgent) (ha : s.accept w = .next t) :
    (s.setHost g).accept w = .next (t.setHost g) := by
  rw [accept_eq] at ha ⊢
  cases ha
  split <;> rfl

theorem writeReg_setHost {busy : Bool} {n : Offset} {v : Word} (g : HostAgent) (hw : s.writeReg busy n v = .next t) :
    (s.setHost g).writeReg busy n v = .next (t.setHost g) := by
  obtain ⟨rfl, hg, rfl⟩ | ⟨rfl, rfl, ha⟩ | ⟨rfl, rfl⟩ | ⟨rfl, hn, rfl⟩ | ⟨hg, h1, rfl⟩ := writeReg_cases hw
  · exact writeReg_guarded_busy hg
  · exact accept_setHost g ha
  · exact writeReg_status busy v _
  · exact writeReg_timing_idle hn
  · exact writeReg_ignored hg h1

theorem clockEdge_setHost {pins : Pins} (g : HostAgent) (hc : s.clockEdge cfg pins = .next t) :
    (s.setHost g).clockEdge cfg pins = .next (t.setHost g) := by
  unfold State.clockEdge at hc ⊢
  rw [sequencerEdge_setHost]
  cases hr : pins.rst with
  | true => rw [hr] at hc; cases hc; rfl
  | false =>
    rw [hr] at hc
    cases ha : pins.access with
    | none => rw [ha] at hc; cases hc; rfl
    | some a =>
      rw [ha] at hc
      cases a with
      | read n => cases hc; rfl
      | write n v => exact writeReg_setHost g hc

theorem clockEdge_host {pins : Pins} (hc : s.clockEdge cfg pins = .next t) : t.host = s.host := by
  have h : Host.Outcome.next t = .next (t.setHost s.host) := hc.symm.trans (clockEdge_setHost s.host hc)
  rw [Host.Outcome.next.inj h]
  rfl

/-! ### Diagnostics along a step -/

/-- Performing the head of the script, once expanded, gives no diagnostic and drops none (R191). -/
theorem act_keeps_diagnostics (ha : h.act cfg = .ok turn) :
    turn.host.diagnostics ++ scriptDiagnostics cfg turn.host.script =
      h.diagnostics ++ scriptDiagnostics cfg h.script := by
  unfold HostAgent.act at ha
  split at ha
  case h_3 addr width rest hscript | h_4 addr width v rest hscript =>
    cases hb : busOffset cfg addr width with
    | error r => rw [hb] at ha; cases ha
    | ok n => rw [hb] at ha; cases ha; rw [hscript]; rfl
  all_goals cases ha; simp only [*, scriptDiagnostics]

theorem turn_keeps_diagnostics (ht : h.turn cfg = .ok turn) :
    turn.host.diagnostics ++ scriptDiagnostics cfg turn.host.script =
      h.diagnostics ++ scriptDiagnostics cfg h.script := by
  obtain ⟨-, rfl⟩ | ⟨n, ps, -, rfl⟩ | ⟨ps, -, -, ha⟩ := turn_cases ht
  · rfl
  · rfl
  · obtain ⟨-, -, hexp⟩ := expand_keeps_work cfg { h with pace := ps }
    exact (act_keeps_diagnostics ha).trans hexp

theorem settlePoll_keeps_diagnostics (cfg : Config) (hp : s.host.script.head? = some .poll) :
    s.settlePoll.host.diagnostics ++ scriptDiagnostics cfg s.settlePoll.host.script =
      s.host.diagnostics ++ scriptDiagnostics cfg s.host.script := by
  obtain ⟨-, -, htail⟩ := tail_of_poll_keeps_work cfg s.host.request hp
  unfold State.settlePoll
  split
  · split
    · rfl
    · exact congrArg (s.host.diagnostics ++ ·) htail
  · rfl

theorem step_keeps_diagnostics (hs : step s = .next t) :
    t.host.diagnostics ++ scriptDiagnostics Config.platform t.host.script =
      s.host.diagnostics ++ scriptDiagnostics Config.platform s.host.script := by
  obtain ⟨turn, u, ht, hc, rfl⟩ := step_next hs
  have hhost : u.host = turn.host := clockEdge_host hc
  rw [← turn_keeps_diagnostics ht, ← hhost]
  split
  · rename_i hp
    obtain ⟨-, hhead⟩ := turn_polling ht hp
    exact settlePoll_keeps_diagnostics _ (hhost ▸ hhead)
  · rfl

/-! ### A step does not look at the diagnostics -/

/-- The host having given `ds` before all else. -/
def HostAgent.withDiagnostics (ds : List Diagnostic) (h : HostAgent) : HostAgent :=
  { h with diagnostics := ds ++ h.diagnostics }

section
variable (ds : List Diagnostic)

theorem withDiagnostics_eq_setHost (s : State) : s.withDiagnostics ds = s.setHost (s.host.withDiagnostics ds) := rfl

theorem expand_withDiagnostics (h : HostAgent) :
    (h.withDiagnostics ds).expand cfg = (h.expand cfg).withDiagnostics ds := by
  unfold HostAgent.expand HostAgent.withDiagnostics
  dsimp only
  split <;> simp only [List.append_assoc]

theorem act_withDiagnostics (h : HostAgent) :
    (h.withDiagnostics ds).act cfg = (h.act cfg).map fun u => { u with host := u.host.withDiagnostics ds } := by
  obtain ⟨script, pace, request, given⟩ := h
  cases script with
  | nil => rfl
  | cons op rest =>
    cases op with
    | memRead addr width =>
      change (busOffset cfg addr width).map _ = ((busOffset cfg addr width).map _).map _
      cases busOffset cfg addr width <;> rfl
    | memWrite addr width v =>
      change (busOffset cfg addr width).map _ = ((busOffset cfg addr width).map _).map _
      cases busOffset cfg addr width <;> rfl
    | _ => rfl

theorem perform_withDiagnostics (h : HostAgent) :
    (h.withDiagnostics ds).perform cfg = (h.perform cfg).map fun u => { u with host := u.host.withDiagnostics ds } := by
  have hover : (h.withDiagnostics ds).overlaps = h.overlaps := rfl
  unfold HostAgent.perform
  rw [hover, expand_withDiagnostics, act_withDiagnostics]
  split <;> rfl

theorem turn_withDiagnostics (h : HostAgent) :
    (h.withDiagnostics ds).turn cfg = (h.turn cfg).map fun u => { u with host := u.host.withDiagnostics ds } := by
  obtain ⟨script, pace, request, given⟩ := h
  cases script with
  | nil => rfl
  | cons op rest =>
    obtain _ | ⟨_ | n, ps⟩ := pace
    · exact perform_withDiagnostics ds _
    · exact perform_withDiagnostics (cfg := cfg) ds ⟨op :: rest, ps, request, given⟩
    · rfl

theorem settlePoll_withDiagnostics (s : State) :
    (s.withDiagnostics ds).settlePoll = s.settlePoll.withDiagnostics ds := by
  have hrdata : (s.withDiagnostics ds).busRdata = s.busRdata := rfl
  unfold State.settlePoll
  rw [hrdata]
  cases s.busRdata with
  | none => rfl
  | some w => cases hw : statusBusy w <;> simp only [hw] <;> rfl

theorem step_withDiagnostics (hs : step s = .next t) :
    step (s.withDiagnostics ds) = .next (t.withDiagnostics ds) := by
  obtain ⟨turn, u, ht, hc, rfl⟩ := step_next hs
  have hhost : u.host = turn.host := clockEdge_host hc
  have ht' : (s.withDiagnostics ds).host.turn Config.platform = .ok { turn with host := turn.host.withDiagnostics ds } :=
    (turn_withDiagnostics ds s.host).trans (by rw [ht]; rfl)
  have hc' : (s.setHost (turn.host.withDiagnostics ds)).clockEdge Config.platform turn.pins =
      .next (u.withDiagnostics ds) := by
    rw [withDiagnostics_eq_setHost, hhost]
    exact clockEdge_setHost (s := s.setHost turn.host) _ hc
  rw [step_of_turn ht' hc']
  cases turn.polling with
  | true => exact congrArg Host.Outcome.next (settlePoll_withDiagnostics ds u)
  | false => rfl

end

/-! ### The step at which a request is due -/

/-- Null and empty text come to one diagnostic, and the turn has nothing on the pins (R179). -/
theorem turn_rejected {text : Option (List Byte)} (ht : text = none ∨ text = some [])
    (hd : s.Due (.displayText text) h) (hempty : h.script = []) :
    s.host.turn cfg = .ok ⟨Pins.quiet, { h with diagnostics := s.host.diagnostics ++ [.inputRejected] }, false⟩ := by
  obtain ⟨-, -, -, hdiag⟩ := id hd
  rw [turn_due hd, ← hdiag]
  obtain ⟨script, pace, request, given⟩ := h
  obtain rfl : script = [] := hempty
  obtain rfl | rfl := ht <;> rfl

theorem step_of_quiet_turn (ht : s.host.turn Config.platform = .ok ⟨Pins.quiet, h, false⟩) :
    step s = .next (edged s h) := by
  rw [step_of_turn ht rfl, sequencerEdge_setHost]
  rfl

/-- A request that would begin while one is in flight is refused (R190, U4). -/
theorem turn_overlapping {c : Byte} {cs : List Byte} (hd : s.Due (.displayText (some (c :: cs))) h)
    (hr : s.host.request ≠ none) : s.host.turn cfg = .error .overlappingRequest := by
  obtain ⟨-, -, hrequest, -⟩ := id hd
  have hover : HostAgent.overlaps { h with script := .displayText (some (c :: cs)) :: h.script } = true := by
    rw [← hrequest] at hr
    exact Option.isSome_iff_ne_none.mpr hr
  rw [turn_due hd, HostAgent.perform, if_pos hover]

/-- A request that begins issues its first sweep and has a new display state (R175, R178). -/
theorem turn_begins {c : Byte} {cs : List Byte} (hd : s.Due (.displayText (some (c :: cs))) h)
    (hr : s.host.request = none) :
    s.host.turn cfg = .ok ⟨⟨false, some (.write 0x0#4 (encode .sweep))⟩,
      { h with script := .poll :: .displayChars (c :: cs) :: h.script, request := some DisplayState.init }, false⟩ := by
  obtain ⟨-, -, hrequest, -⟩ := id hd
  have hover : HostAgent.overlaps { h with script := .displayText (some (c :: cs)) :: h.script } = false := by
    change h.request.isSome = false
    rw [hrequest, hr]
    rfl
  rw [turn_due hd, HostAgent.perform, hover]
  rfl

theorem step_begins {c : Byte} {cs : List Byte} (hd : s.Due (.displayText (some (c :: cs))) h)
    (hr : s.host.request = none) : ∃ t, step s = .next t ∧ t.host.request = some DisplayState.init := by
  have ht := turn_begins (cfg := Config.platform) hd hr
  obtain ⟨t, hc⟩ := clockEdge_next Config.platform _ (s.setHost _)
  exact ⟨t, step_of_turn ht hc, by rw [clockEdge_host hc]; rfl⟩

end Sys2Proof.Machine
end

section
/-!
PROOF. The statements about the reference host: its codec, its command words, and its steps.
-/

namespace Sys2Proof.Proofs

open Sys2Proof.Machine Sys2Proof.Statements

/-- Settles O52: one step of a host that waits, by what its turn can be. -/
theorem waitingHostIsNeverDropped : Obligations.WaitingHostIsNeverDropped := by
  intro s t hw hs
  obtain ⟨hwaits, herr, -⟩ := step_of_waiting hw hs
  exact ⟨hwaits, herr⟩

/-- Settles O53: a script of the one request has its words, and a step of a host that waits issues the first or none. -/
theorem referenceHostIssuesItsWordsInOrder : Obligations.ReferenceHostIssuesItsWordsInOrder := by
  refine ⟨fun cfg text => ?_, fun s t hw hs => ?_⟩
  · cases text with
    | none => rfl
    | some text => exact List.append_nil _
  · obtain ⟨-, -, hwords⟩ := step_of_waiting hw hs
    exact hwords

/-- Settles O51: the turn has nothing on the pins, so the step is the sequencer's event alone. -/
theorem rejectedTextTouchesNothing : Obligations.RejectedTextTouchesNothing := by
  refine fun text ht => ⟨fun cfg => ?_, fun s h hd hempty => step_of_quiet_turn (turn_rejected ht hd hempty)⟩
  obtain rfl | rfl := ht <;> rfl

/-- Settles O56: expanding and performing the script keep the diagnostics, and no part of a step looks at them. -/
theorem everyUnmappedCharacterIsReported : Obligations.EveryUnmappedCharacterIsReported := by
  refine ⟨fun cfg text htext => ?_, fun s t => step_keeps_diagnostics, fun s t ds => step_withDiagnostics ds⟩
  cases text with
  | nil => exact absurd rfl htext
  | cons c cs =>
    have hnone (b : Byte) : (lookup cfg b).isNone = (lookup cfg b == none) := by cases lookup cfg b <;> rfl
    simp only [scriptDiagnostics, textDiagnostics, hnone, List.append_nil]

/-- Settles O57: the overlap is found before the script is expanded; else the request begins with its first sweep. -/
theorem overlappingRequestIsRefused : Obligations.OverlappingRequestIsRefused := by
  intro s h text htext hd
  cases text with
  | nil => exact absurd rfl htext
  | cons c cs => exact ⟨fun hr => step_refused (turn_overlapping hd hr), step_begins hd⟩

/-- Settles O43: a letter and its capital fold to the same code, and a digit has its letter's place in the table. -/
theorem codecLaws : Obligations.CodecLaws := by
  refine fun cfg => ⟨fun c h1 h2 => ?_, fun d h1 h2 => ?_, rfl⟩
  · have hc := isLetter_iff.mpr ⟨h1, h2⟩
    obtain ⟨hsmall, hcapital⟩ := foldCase_letter hc
    exact ⟨lookup_congr (hcapital.trans hsmall.symm), by rw [lookup_of_letter hc]; simp [letter_index_lt hc]⟩
  · have hd : isDigit d = true := isDigit_iff.mpr ⟨by bv_omega, h2⟩
    have hc : isLetter (d - 0x31#8 + 0x61#8) = true := isLetter_iff.mpr (by bv_omega)
    have hplace : digitLetter d = (d - 0x31#8 + 0x61#8).toNat - 0x61 := by
      rw [digitLetter, if_neg (by bv_omega)]
      bv_omega
    rw [lookup_of_digit hd, lookup_of_letter hc, hplace]

/-- Settles O44: the table has no pattern twice. -/
theorem letterPatternsAreDistinct : Obligations.LetterPatternsAreDistinct := by
  intro cfg c d hc1 hc2 hd1 hd2 h
  have hc := isLetter_iff.mpr ⟨hc1, hc2⟩
  have hd := isLetter_iff.mpr ⟨hd1, hd2⟩
  rw [lookup_of_letter hc, lookup_of_letter hd] at h
  have hnodup : letterTable.Nodup := by decide
  have hplace := (List.getElem?_inj (letter_index_lt hc) hnodup).mp h
  bv_omega

/-- Settles O45: folding changes capitals alone, and each class of folded codes has its patterns. -/
theorem lookupNotFoundExactly : Obligations.LookupNotFoundExactly := by
  refine fun cfg => ⟨fun c => ?_, rfl, rfl, rfl⟩
  rw [lookup_eq_none_iff, ← isLetter_iff, ← isDigit_iff, Bool.not_eq_true, Bool.not_eq_true]
  obtain hl | hfold := foldCase_cases c
  · simp [hl]
  · rw [hfold]
    exact and_congr_right fun _ => and_congr_right fun _ => And.comm

/-- Settles O46: the slots of the text one character at a time, behind the request's first sweep. -/
theorem slotsCycleWithASweepAtEachWrap : Obligations.SlotsCycleWithASweepAtEachWrap := by
  rintro cfg text htext N rfl
  have hpos := List.length_pos_of_ne_nil htext
  have hsweep : slotEvent (encode .sweep) = some none := rfl
  rw [displayWords_of_ne_nil htext]
  refine ⟨?_, ?_⟩
  · rw [List.filterMap_cons_some hsweep, slotEvents_textWords, none_cons_slotEvents (by omega)]
  · have hcount := length_filter_textWords (i := .sweep) (by intro st pat; cases pat <;> exact nofun) cfg text
    rw [List.filter_cons_of_pos rfl, List.length_cons, hcount, Nat.add_comm]
    simp

/-- Settles O47: a further character brings a settle hold, behind a prefix, exactly where it begins a run of digits. -/
theorem onePrefixSlotPerDigitRun : Obligations.OnePrefixSlotPerDigitRun := by
  refine fun cfg text => ⟨?_, ?_, fun c => ?_, fun c d =>
    ⟨charWords cfg (DisplayState.init.afterText (text ++ [c])) d, ?_, ?_⟩⟩
  · have hcount := length_filter_textWords (i := .waitSettle) (by intro st pat; cases pat <;> exact nofun) cfg text
    obtain rfl | htext := eq_or_ne text []
    · rfl
    · rw [displayWords_of_ne_nil htext, List.filter_cons_of_neg (by decide), hcount]
      simp
  · exact settlesFollowPrefixes_displayWords cfg text
  · have hsweep : encode .waitSettle ≠ encode .sweep := by decide
    rw [displayWords_of_ne_nil (by simp), List.mem_cons, or_iff_right hsweep, textWords, textWords, List.append_nil,
      settle_mem_charWords]
    simp [startsDigitRun, DisplayState.init]
  · have happend : text ++ [c, d] = (text ++ [c]) ++ [d] := by simp
    rw [happend, displayWords_of_ne_nil (by simp), displayWords_of_ne_nil (by simp), textWords_concat]
    rfl
  · rw [settle_mem_charWords, afterText_concat]
    simp [startsDigitRun, DisplayState.afterChar]

/-- Settles O48: each word's time is its sweep, hold, or address setup and dots, summed over the request. -/
theorem requestDuration : Obligations.RequestDuration := by
  rintro cfg text htext N P C D rfl rfl rfl rfl
  refine ⟨sum_duration_displayWords cfg htext, (sum_duration_displayWords cfg htext State.reset.timing).trans ?_⟩
  simp [State.reset, Timing.reset]

/-- Settles O49: the words end with those of the last character, whose slot is the request's last. -/
theorem unmappedCharacterIsOnlyAddressed : Obligations.UnmappedCharacterIsOnlyAddressed := by
  intro cfg text c
  obtain ⟨before, hends⟩ := charWords_ends cfg (DisplayState.init.afterText text) c
  refine ⟨encode .sweep :: textWords cfg .init text ++ before, ?_⟩
  rintro N rfl
  have hslot : ((DisplayState.init.afterText text).afterRunStart c).slot = BitVec.ofNat 3 _ :=
    congrArg (BitVec.ofNat 3) (last_slot_index text c)
  rw [displayWords_of_ne_nil (by simp), textWords_concat, hends, ← List.cons_append, ← List.append_assoc, ← hslot]
  cases lookup cfg c <;> rfl

/-- Settles O50: the state after the last character, by the slots of the text. -/
theorem displayStateAfterAText : Obligations.DisplayStateAfterAText := by
  rintro text c N rfl
  rw [← afterText_displayIndex, afterText_concat]
  rfl

end Sys2Proof.Proofs
end

section
/-!
PROOF. A guarded write, whatever `BUSY` it finds: dropped with ErrBusy, or done (R25, R29, R202).
-/

namespace Sys2Proof.Machine

open Sys2Proof.Statements

variable {s t : State} {h : HostAgent} {n : Offset} {v : Word}

/-- The guarded offsets are those of `CMD` and of the timing registers (R202). -/
theorem isGuarded_iff : isGuarded n = true ↔ n = 0x0#4 ∨ 0x4#4 ≤ n ∧ n ≤ 0x9#4 := by
  simp [isGuarded, isTimingOffset]

/-- A write to an offset that no `BUSY` guards sets no ErrBusy (R202). -/
theorem errBusy_of_writeReg_unguarded {busy : Bool} (hg : isGuarded n = false) (hw : s.writeReg busy n v = .next t)
    (ht : t.errBusy = true) : s.errBusy = true := by
  obtain ⟨-, hg', -⟩ | ⟨-, rfl, -⟩ | ⟨-, rfl⟩ | ⟨-, htim, -⟩ | ⟨-, -, rfl⟩ := writeReg_cases hw
  · simp [hg] at hg'
  · cases hg
  · rw [clearFlags_errBusy, Bool.and_eq_true] at ht
    obtain ⟨herr, -⟩ := ht
    exact herr
  · simp [isGuarded_of_timing htim] at hg
  · exact ht

/-- A due guarded write is dropped with ErrBusy, or does what it does in an idle block after the edge (R202; log 6). -/
theorem step_write_guarded (hg : isGuarded n = true) (hd : s.Due (.access (.write n v)) h) :
    step s = .next ((edged s h).raise .errBusy) ∨ step s = (edged s h).writeReg false n v := by
  rw [step_write hd]
  cases busySeen Config.platform s (s.sequencerEdge clk) with
  | true => exact .inl (writeReg_guarded_busy hg)
  | false => exact .inr rfl

end Sys2Proof.Machine
end

section
/-!
PROOF. The error flags as one family, and what can clear one: reset, or a write of its `STATUS` bit (R26, R204, R207).
-/

namespace Sys2Proof.Machine

variable {s t : State} {cfg : Config} {e : ErrClass}

/-- The sticky flag of an error (R26, R204). -/
def State.flag (e : ErrClass) (s : State) : Bool :=
  match e with
  | .errBusy => s.errBusy
  | .errIllegal => s.errIllegal

/-- The bit of `STATUS` that shows an error's flag and clears it (R26). -/
def ErrClass.statusBit : ErrClass → Nat
  | .errBusy => 2
  | .errIllegal => 3

theorem flag_clearFlags (e : ErrClass) (w : Word) (s : State) :
    (s.clearFlags w).flag e = (s.flag e && !w.getLsbD e.statusBit) := by
  cases e <;> rfl

/-- Raising an error sets its own flag and clears none (R204). -/
theorem flag_raise (e e' : ErrClass) (s : State) : (s.raise e').flag e = (decide (e = e') || s.flag e) := by
  cases e <;> cases e' <;> rfl

@[simp] theorem flag_setHost (h : HostAgent) : (s.setHost h).flag e = s.flag e := by cases e <;> rfl
@[simp] theorem flag_setRdata (r : Option Word) : (s.setRdata r).flag e = s.flag e := by cases e <;> rfl
@[simp] theorem flag_setTiming (T : Timing) : (s.setTiming T).flag e = s.flag e := by cases e <;> rfl
@[simp] theorem flag_sequencerEdge (n : Nat) : (s.sequencerEdge n).flag e = s.flag e := by
  cases e with
  | errBusy => exact sequencerEdge_errBusy
  | errIllegal => exact sequencerEdge_errIllegal

/-- An accepted command clears no flag (R121, R155). -/
theorem flag_accept {w : Word} (hf : s.flag e = true) (ha : s.accept w = .next t) : t.flag e = true := by
  cases e with
  | errBusy =>
    obtain ⟨-, -, -, -, hbusy, -⟩ := exec_frame ha
    exact hbusy.trans hf
  | errIllegal =>
    obtain ⟨-, -, -, -, hillegal⟩ := exec_starts ha
    exact hillegal.trans (Bool.or_eq_true_iff.mpr (.inl hf))

/-- A host write that clears a flag writes 1 to the flag's bit of `STATUS` (R26, R207). -/
theorem status_write_of_flag_cleared {busy : Bool} {n : Offset} {v : Word} (hw : s.writeReg busy n v = .next t)
    (hf : s.flag e = true) (hc : t.flag e = false) : n = 0x1#4 ∧ v.getLsbD e.statusBit = true := by
  obtain ⟨-, -, rfl⟩ | ⟨-, -, ha⟩ | ⟨hn, rfl⟩ | ⟨-, -, rfl⟩ | ⟨-, -, rfl⟩ := writeReg_cases hw
  · simp [flag_raise, hf] at hc
  · simp [flag_accept hf ha] at hc
  · refine ⟨hn, ?_⟩
    simpa [flag_clearFlags, hf] using hc
  · simp [hf] at hc
  · simp [hf] at hc

/-- What is on the pins at an edge that clears a flag (R207). -/
theorem pins_of_flag_cleared {pins : Pins} (he : s.clockEdge cfg pins = .next t) (hf : s.flag e = true)
    (hc : t.flag e = false) :
    pins.rst = true ∨ ∃ v : Word, pins.access = some (.write 0x1#4 v) ∧ v.getLsbD e.statusBit = true := by
  obtain ⟨hr, -⟩ | ⟨-, -, rfl⟩ | ⟨n, -, -, rfl⟩ | ⟨n, v, -, ha, hw⟩ := clockEdge_cases he
  · exact .inl hr
  · simp [hf] at hc
  · simp [hf] at hc
  · obtain ⟨rfl, hv⟩ := status_write_of_flag_cleared hw (by simpa using hf) hc
    exact .inr ⟨v, ha, hv⟩

/-- What the host's turn is at a step that clears a flag (R207). -/
theorem turn_of_flag_cleared (hs : step s = .next t) (hf : s.flag e = true) (hc : t.flag e = false) :
    ∃ turn, s.host.turn Config.platform = .ok turn ∧ (turn.pins.rst = true ∨
      ∃ v : Word, turn.pins.access = some (.write 0x1#4 v) ∧ v.getLsbD e.statusBit = true) := by
  obtain ⟨turn, u, ht, he, rfl⟩ := step_next hs
  obtain ⟨h, hpoll⟩ := settlePoll_block u
  have hu : u.flag e = false := by
    split at hc
    · rwa [hpoll, flag_setHost] at hc
    · exact hc
  exact ⟨turn, ht, pins_of_flag_cleared he (by simpa using hf) hu⟩

end Sys2Proof.Machine
end

section
/-!
PROOF. Why a host's turn can be refused, and that a script of plain operations never is (R62, R64, R190, R200).
-/

namespace Sys2Proof.Machine

open Sys2Proof.Statements

variable {cfg : Config} {h : HostAgent} {r : Refusal} {addr width : Nat}

/-- The three refusals of an access on the host bus (U1, U2, U3). -/
theorem busOffset_error (hb : busOffset cfg addr width = .error r) :
    r = .accessWidth ∨ r = .misaligned ∨ r = .outsideBlock := by
  unfold busOffset at hb
  split_ifs at hb
  · cases hb; exact .inl rfl
  · cases hb; exact .inr (.inl rfl)
  · cases hb; exact .inr (.inr rfl)

/-- Performing the head of a script is refused only of an access on the host bus (R62, R64). -/
theorem act_error (ha : h.act cfg = .error r) :
    h.script.all plainOp = false ∧ ∃ addr width, busOffset cfg addr width = .error r := by
  unfold HostAgent.act at ha
  split at ha
  case h_3 addr width rest hscript | h_4 addr width v rest hscript =>
    cases hb : busOffset cfg addr width with
    | error r' => rw [hb] at ha; cases ha; exact ⟨by rw [hscript]; rfl, addr, width, hb⟩
    | ok n => rw [hb] at ha; cases ha
  all_goals cases ha

/-- A second request is no plain operation (R190). -/
theorem overlaps_not_plain (ho : h.overlaps = true) : h.script.all plainOp = false := by
  unfold HostAgent.overlaps at ho
  split at ho
  · rename_i hscript
    rw [hscript]
    rfl
  · cases ho

@[simp] theorem all_plainOp_issue (w : Word) : (issue w).all plainOp = true := rfl

@[simp] theorem all_plainOp_issues (ws : List Word) : (ws.flatMap issue).all plainOp = true := by
  simp [List.all_flatMap]

/-- What the reference host does for a character is plain (R178). -/
@[simp] theorem all_plainOp_charOps (st : DisplayState) (c : Byte) : (charOps cfg st c).all plainOp = true := by
  have hnote (st : DisplayState) (ds : List Diagnostic) : plainOp (.note st ds) = true := rfl
  unfold charOps
  split_ifs <;> simp [hnote, -List.all_eq_true, -List.all_flatMap]

/-- A script of plain operations comes to plain operations (R178). -/
theorem all_plainOp_expand (hp : h.script.all plainOp = true) : (h.expand cfg).script.all plainOp = true := by
  obtain ⟨script, pace, request, given⟩ := h
  cases script with
  | nil => exact hp
  | cons op rest =>
    obtain ⟨hop, hrest⟩ := Bool.and_eq_true_iff.mp hp
    cases op with
    | displayText text => cases hop
    | displayChars text => cases text with
      | nil => exact hrest
      | cons c cs => simpa [HostAgent.expand, plainOp] using hrest
    | note st ds => exact hrest
    | _ => exact hp

theorem perform_error (hp : h.perform cfg = .error r) :
    h.script.all plainOp = false ∧ (r = .overlappingRequest ∨ ∃ addr width, busOffset cfg addr width = .error r) := by
  unfold HostAgent.perform at hp
  split at hp
  · cases hp
    exact ⟨overlaps_not_plain ‹_›, .inl rfl⟩
  · obtain ⟨hact, hbus⟩ := act_error hp
    exact ⟨eq_false_of_ne_true fun hplain => by simp [all_plainOp_expand hplain] at hact, .inr hbus⟩

/-- Why a turn is refused: the script is not plain, and the operation is a bus access or a second request (R62, R190). -/
theorem turn_error (ht : h.turn cfg = .error r) :
    h.script.all plainOp = false ∧ (r = .overlappingRequest ∨ ∃ addr width, busOffset cfg addr width = .error r) := by
  obtain ⟨script, pace, request, given⟩ := h
  cases script with
  | nil => cases ht
  | cons op rest =>
    obtain _ | ⟨_ | n, ps⟩ := pace
    · exact perform_error ht
    · exact perform_error (h := ⟨op :: rest, ps, request, given⟩) ht
    · cases ht

end Sys2Proof.Machine
end

section
/-!
PROOF. The statements about errors: the busy guard, the sticky flags, and that no error stops the machine.
-/

namespace Sys2Proof.Proofs

open Sys2Proof.Machine Sys2Proof.Statements

/-- Settles O25: the guarded offsets are the two kinds named, and only a write there raises ErrBusy. -/
theorem busyGuardDropsWrites : Obligations.BusyGuardDropsWrites := by
  refine ⟨fun s h n v hb hn hd => step_write_guarded_busy hb (isGuarded_iff.mpr hn) hd,
    fun s t h n v hn hd hs ht => ?_⟩
  have hg : isGuarded n = false := eq_false_of_ne_true (mt isGuarded_iff.mp hn)
  have herr := errBusy_of_writeReg_unguarded hg ((step_write hd).symm.trans hs) ht
  exact sequencerEdge_errBusy.symm.trans herr

/-- Settles O26: the platform's answer drops the write, or leaves it the idle block after the completion. -/
theorem writeAtCompletingEdgeIsDroppedOrAccepted : Obligations.WriteAtCompletingEdgeIsDroppedOrAccepted := by
  refine fun s h _ _ => ⟨fun w hd => step_write_guarded rfl hd, fun n v h4 h9 hd => ?_⟩
  have hn := isTimingOffset_of_le h4 h9
  obtain hdropped | hdone := step_write_guarded (isGuarded_of_timing hn) hd
  · exact .inl hdropped
  · exact .inr ⟨(edged s h).timing.write n v, hdone.trans (writeReg_timing_idle hn),
      readReg_setTiming_write_same _ hn v, fun m hm => readReg_setTiming_write_of_ne _ hn hm v⟩

/-- Settles O40: only the host's turn can be refused, and each of its refusals has its operation in the script. -/
theorem nothingTheBlockDoesStopsIt : Obligations.NothingTheBlockDoesStopsIt := by
  refine ⟨fun s hplain => ?_, fun s => ?_⟩
  · obtain ⟨_, t, -, -, hs⟩ | ⟨r, ht, -⟩ := step_cases s
    · exact ⟨_, hs⟩
    · obtain ⟨hnot, -⟩ := turn_error ht
      rw [List.all_eq_true.mpr hplain] at hnot
      cases hnot
  · obtain ⟨_, t, -, -, hs⟩ | ⟨r, ht, hs⟩ := step_cases s
    · exact .inl ⟨_, hs⟩
    · obtain ⟨-, rfl | ⟨addr, width, hbus⟩⟩ := turn_error ht
      · exact .inr ⟨_, hs, by simp⟩
      · obtain hr | hr | hr := busOffset_error hbus <;> exact .inr ⟨r, hs, by simp [hr]⟩

/-- Settles O41: reset apart, only a write of `STATUS` clears a flag, and only one with the flag's bit 1. -/
theorem errorFlagsAreSticky : Obligations.ErrorFlagsAreSticky := fun _ _ hs =>
  ⟨turn_of_flag_cleared (e := .errBusy) hs, turn_of_flag_cleared (e := .errIllegal) hs⟩

end Sys2Proof.Proofs
end

section
/-!
PROOF. The step at which reset is due (R230; log 18).
-/

namespace Sys2Proof.Machine

variable {s : State} {cfg : Config} {h : HostAgent} {a : Option Access}

theorem turn_reset (hd : s.Due (.reset a) h) : s.host.turn cfg = .ok ⟨⟨true, a⟩, h, false⟩ := turn_due hd

/-- A due reset resets the block, whatever access is in its cycle, and the host goes on (R230). -/
theorem step_reset (hd : s.Due (.reset a) h) : step s = .next (s.setHost h).resetBlock :=
  step_of_turn (turn_reset hd) rfl

end Sys2Proof.Machine
end

section
/-!
PROOF. Cycle by cycle through an accepted command: the state in each cycle of a phase, and each cycle's phase (R241).
-/

namespace Sys2Proof.Machine

open Sys2Proof.Statements

variable {s : State} {ps : List Phase} {p : Phase} {k j : Nat}

/-- Cycle `j` of phase `k`, counted from the edge after acceptance (R122, R241). -/
theorem takes_in_phase (hs : Silent s) (hp : ps[k]? = some p) (hj : j < cycles p.hold) :
    Takes (1 + ((ps.take k).map fun q => cycles q.hold).sum + j) (accepted s ps)
      ((inPhase clk ps k p.hold s).setSequencer k (cycles p.hold - j)) := by
  have hsil : (inPhase clk ps k p.hold s).host.script = [] := by simpa [inPhase] using hs
  exact runs_trans (runs_to_phase hs hp) (runs_hold hsil rfl rfl hj)

/-- Every cycle of a phase list is a cycle of one of its phases (R241). -/
theorem cycle_in_phase (hj : j < (ps.map fun q => cycles q.hold).sum) :
    ∃ k p i, ps[k]? = some p ∧ i < cycles p.hold ∧ j = ((ps.take k).map fun q => cycles q.hold).sum + i := by
  induction ps generalizing j with
  | nil => cases hj
  | cons q ps ih =>
    rw [List.map_cons, List.sum_cons] at hj
    by_cases hq : j < cycles q.hold
    · exact ⟨0, q, j, rfl, hq, (Nat.zero_add j).symm⟩
    · obtain ⟨k, p, i, hp, hi, hsum⟩ := ih (j := j - cycles q.hold) (by omega)
      refine ⟨k + 1, p, i, hp, hi, ?_⟩
      rw [List.take_succ_cons, List.map_cons, List.sum_cons]
      omega

/-- From its acceptance to its last phase's last cycle a command is busy (R121, R241). -/
theorem takes_busy (hs : Silent s) (hj : j < 1 + (ps.map fun q => cycles q.hold).sum) :
    ∃ t, Takes j (accepted s ps) t ∧ t.busy = true := by
  cases j with
  | zero => exact ⟨_, rfl, rfl⟩
  | succ j =>
    obtain ⟨k, p, i, hp, hi, rfl⟩ := cycle_in_phase (ps := ps) (j := j) (by omega)
    rw [Nat.add_comm _ 1, ← Nat.add_assoc]
    exact takes_busy_in_phase hs hp hi

/-- `1 + H * CLK_PER_MS + Z`, the cycles of a command, as a sum over its phases (R241). -/
theorem busy_cycles_eq (ps : List Phase) :
    1 + (ps.map fun p => p.hold.toNat).sum * clk + (ps.filter fun p => p.hold == 0#16).length =
      1 + (ps.map fun p => cycles p.hold).sum := by
  rw [Nat.add_assoc]
  exact congrArg (1 + ·) (cyclesOf_eq clk (clkPerMs_pos _) ps).symm

end Sys2Proof.Machine
end

section
/-!
PROOF. Where `MODE` and, in address mode, the select lines can change, and where a pulse code can be in address mode
(R131, R136, R141, R249).
-/

namespace Sys2Proof.Machine

open Sys2Proof.Statements

variable {s : State} {i : Instr} {T : Timing} {p : Phase}

/-- The commands that enter address mode (R136, R141). -/
def EntersAddressMode (i : Instr) : Prop :=
  (∃ slot, i = .addr slot) ∨ ∃ slot pat, i = .play 6#3 slot pat

/-- Once its first phase has begun, a sweep is in sweep mode (R131). -/
theorem mode_of_held_sweep (h : s.Inv) (hb : s.busy = true) (hhold : s.holdCnt ≠ 0) (hi : decode s.cmd = .sweep) :
    s.mode = .sweep := by
  obtain ⟨-, happ⟩ := h.applied hb hhold
  rw [h.program hb, hi] at happ
  have hmode := applyPhases_take_sweep_mode s.withIdlePulse s.timing s.seqIndex
  rwa [show sweepPhases s.timing = phasesOf .sweep s.timing from rfl, happ] at hmode

/-- Only a sweep has a pulse code in its first phase (R131, R249). -/
theorem applyPhase_head_pul (hi : i ≠ .sweep) (hp : (phasesOf i T)[0]? = some p) (s : State) :
    (s.applyPhase p).pul = s.pul := by
  obtain ⟨hsweep, -⟩ | ⟨slot, pat, -, rfl⟩ | ⟨-, hlines, -⟩ := phasesOf_head hp
  · exact absurd hsweep hi
  · rw [applyPhase_address]
  · simp [hlines]

/-- Only a sweep and a well-formed `PLAY` have a second phase (R131, R136, R141, R150). -/
theorem sweep_or_play_of_second_phase (h : 1 < (phasesOf i T).length) :
    i = .sweep ∨ ∃ slot pat, i = .play 6#3 slot pat := by
  cases i with
  | sweep => exact .inl rfl
  | play len slot pat =>
    by_cases hlen : len = 6#3
    · exact .inr ⟨slot, pat, by rw [hlen]⟩
    · rw [phasesOf, playPhases_malformed hlen] at h
      cases h
  | _ => simp [phasesOf, addrPhases, waitSettlePhases, waitCharPhases] at h

/-- What an edge of the sequencer makes of `MODE` and of the select lines in address mode: nothing, or the first phase of a
sweep or of an address entry begins, from idle pulse lines (R124, R249). -/
theorem sequencerEdge_mode_cases (h : s.Inv) (n : Nat) :
    ((s.sequencerEdge n).mode = s.mode ∧ (s.mode = .address → (s.sequencerEdge n).sel = s.sel)) ∨
    (s.busy = true ∧ s.holdCnt = 0 ∧ s.pul = 0#3 ∧
      (decode s.cmd = .sweep ∧ (s.sequencerEdge n).mode = .sweep ∧ (s.sequencerEdge n).pul = pulseCode 0 ∨
        EntersAddressMode (decode s.cmd) ∧ (s.sequencerEdge n).mode = .address ∧ (s.sequencerEdge n).pul = 0#3)) := by
  obtain ⟨-, e⟩ | ⟨-, -, e⟩ | ⟨p, hb, -, hp, e⟩ | ⟨-, -, -, e⟩ := sequencerEdge_cases n s <;> rw [e]
  · exact .inl ⟨rfl, fun _ => rfl⟩
  · exact .inl ⟨rfl, fun _ => rfl⟩
  · rw [h.program hb] at hp
    by_cases h0 : s.holdCnt = 0
    · obtain ⟨hindex, hpul⟩ := h.pending hb h0
      rw [nextPhase, if_pos h0, hindex] at hp
      obtain ⟨hi, -⟩ | ⟨slot, pat, hi, rfl⟩ | ⟨-, hlines, -⟩ := phasesOf_head hp
      · rw [hi] at hp
        cases hp
        exact .inr ⟨hb, h0, hpul, .inl ⟨hi, rfl, applyLines_setPul s (pulseCode 0)⟩⟩
      · have henter : EntersAddressMode (decode s.cmd) := hi.imp (fun ⟨hi, _⟩ => ⟨slot, hi⟩) fun hi => ⟨slot, pat, hi⟩
        rw [applyPhase_address]
        exact .inr ⟨hb, h0, hpul, .inr ⟨henter, rfl, hpul⟩⟩
      · exact .inl ⟨by simp [hlines], fun _ => by simp [hlines]⟩
    · rw [nextPhase, if_neg h0] at hp
      have htail := mem_tail_of_getElem? hp
      obtain ⟨hmode, -⟩ := phasesOf_tail htail
      refine .inl ⟨by simp [hmode], fun haddress => ?_⟩
      have hi : decode s.cmd ≠ .sweep := fun hi => by
        simp [mode_of_held_sweep h hb h0 hi] at haddress
      simp [phasesOf_tail_sel hi htail]
  · exact .inl ⟨rfl, fun _ => rfl⟩

/-- Where a pulse code is on the lines a phase is held (R34, R241). -/
theorem held_of_pulse (h : s.Inv) (hpul : s.pul ≠ 0#3) : s.busy = true ∧ s.holdCnt ≠ 0 := by
  have hb : s.busy = true := by
    by_contra hb
    obtain ⟨hidle, -⟩ := h.idle (eq_false_of_ne_true hb)
    exact hpul hidle
  refine ⟨hb, fun h0 => ?_⟩
  obtain ⟨-, hidle⟩ := h.pending hb h0
  exact hpul hidle

/-- In address mode a pulse code is on the lines only in a `PLAY`, after its address entry (R141, R249). -/
theorem play_of_pulse_in_address_mode (h : s.Inv) (hmode : s.mode = .address) (hpul : s.pul ≠ 0#3) :
    s.busy = true ∧ 1 ≤ s.seqIndex ∧ ∃ slot pat, decode s.cmd = .play 6#3 slot pat := by
  obtain ⟨hb, hhold⟩ := held_of_pulse h hpul
  have hi : decode s.cmd ≠ .sweep := fun hi => by simp [mode_of_held_sweep h hb hhold hi] at hmode
  obtain ⟨hin, happ⟩ := h.applied hb hhold
  rw [h.program hb] at hin happ
  have hindex : s.seqIndex ≠ 0 := fun h0 => by
    rw [h0] at hin happ
    have hp := List.getElem?_eq_getElem hin
    have hidle := applyPhase_head_pul hi hp s.withIdlePulse
    rw [applyPhases_take_succ hp, List.take_zero, applyPhases_nil] at happ
    rw [happ] at hidle
    exact hpul hidle
  obtain hsweep | hplay := sweep_or_play_of_second_phase (i := decode s.cmd) (T := s.timing) (by omega)
  · exact absurd hsweep hi
  · exact ⟨hb, Nat.pos_of_ne_zero hindex, hplay⟩

end Sys2Proof.Machine
end

section
/-!
PROOF. The statements about reset, about the cycles of a command, and about pulse codes at a change of mode.
-/

namespace Sys2Proof.Proofs

open Sys2Proof.Machine Sys2Proof.Statements

/-- Settles O31: the turn drives `rst = 1`, and the edge with it leaves the reset values, whatever the access. -/
theorem resetWins : Obligations.ResetWins := ⟨fun _ _ _ => step_reset, rfl⟩

/-- Settles O14: the run to each cycle of a phase; every cycle but the accepting one lies in a phase. -/
theorem cycleMapping : Obligations.CycleMapping := by
  intro i s u hs hexec
  rw [exec_eq_accepted] at hexec
  cases hexec
  have hsil : Silent { s with errIllegal := s.errIllegal || isReserved i } := hs
  refine ⟨fun k p j hp hj => ⟨_, takes_in_phase hsil hp hj, rfl, rfl, rfl, ?_⟩, ?_⟩
  · rw [inPhase, applyPhases_withErrIllegal]
    exact ⟨rfl, rfl, rfl, rfl⟩
  · rintro total rfl
    rw [busy_cycles_eq]
    exact ⟨fun j => takes_busy hsil, _, takes_to_end hsil _, rfl⟩

/-- Settles O37: `MODE`, and the select lines in address mode, change only where a first phase begins from idle pulse
lines; a pulse code in address mode comes from a later phase, and only `PLAY` has one there. -/
theorem noPulseCodeAtAModeChange : Obligations.NoPulseCodeAtAModeChange := by
  refine ⟨fun s t turn hinv hs ht hr => ?_, fun s => play_of_pulse_in_address_mode⟩
  obtain ⟨hmode, hsel, hpul, -⟩ : t.mode = _ ∧ t.sel = _ ∧ t.pul = _ ∧ t.cur = _ := by
    simpa only [State.outputs, Prod.mk.injEq] using step_outputs hs ht hr
  rw [hmode, hsel, hpul]
  obtain ⟨hkeep, hkeepSel⟩ | ⟨hb, h0, hidle, ⟨hi, hm, hp⟩ | ⟨hi, hm, hp⟩⟩ := sequencerEdge_mode_cases hinv clk
  · rw [hkeep]
    refine ⟨fun hne => absurd rfl hne, fun h h' => ?_, fun h h' => ?_, fun h _ hne => absurd (hkeepSel h) hne⟩
    · rw [h] at h'; cases h'
    · rw [h] at h'; cases h'
  · rw [hm]
    exact ⟨fun _ => ⟨hb, h0, .inl hi⟩, fun _ h => (nomatch h), fun _ _ => ⟨hidle, hp⟩, fun _ h => (nomatch h)⟩
  · rw [hm]
    exact ⟨fun _ => ⟨hb, h0, .inr hi⟩, fun _ _ => ⟨hidle, hp⟩, fun _ h => (nomatch h),
      fun _ _ _ => ⟨hidle, hp, hb, h0, hi⟩⟩

end Sys2Proof.Proofs
end
